-- ==== Sys2Proof/Word.lean ====
section
/-! DEFINITION. The words of the block: a register or memory byte (R10) and a transaction word (R80). -/

namespace Sys2Proof

/-- A register or a memory byte, the spec's `u8` (R10). -/
abbrev Byte := BitVec 8

/-- A transaction word T (R80). -/
abbrev Word := BitVec 32

end Sys2Proof
end

