-- ==== Sys2Proof/Config.lean ====
section
/-! DEFINITION. What a launch fixes for a whole run (the parameters of R8) and the free values the spec
calls draws (R173, R40). A `Params` is a field of the state: every rule is stated for all of them. -/

namespace Sys2Proof

/-- `FB_HEIGHT_LINES` (R8, R176): 160 is the source's square framebuffer, 144 its corrected size. -/
inductive FbHeight where
  | lines160
  | lines144
  deriving DecidableEq, Repr

/-- `LY_WRITE_POLICY` (R187): what a host write of LY does. -/
inductive LyWritePolicy where
  | store
  | resetToZero
  | ignore
  deriving DecidableEq, Repr

/-- `BEHIND_BG_TEST` (R159): the colour a behind-background sprite pixel is drawn over. -/
inductive BehindBgTest where
  | white
  | bgpColor0
  deriving DecidableEq, Repr

/-- `SHADE_COLOR[0..3]` (R34, R171): the packed colour of each shade, white first, black last.
A packed colour is a natural number (log entry 10). -/
structure ShadeTable where
  shade0 : Nat
  shade1 : Nat
  shade2 : Nat
  shade3 : Nat
  deriving DecidableEq, Repr

/-- The parameters of R8. `ELAPSED_BITS` is the width of TICK's operand, `ACC_BITS` is unbounded (D6), and
`REG_RESET` is the launch state itself. -/
structure Params where
  /-- `SCALE`, 1..102. -/
  scale : Nat
  /-- `FB_HEIGHT_LINES`. -/
  fbHeight : FbHeight
  /-- `SHADE_COLOR`. -/
  shadeColor : ShadeTable
  /-- `COINCIDENCE_WHEN_DISABLED` (R108). -/
  coincidenceWhenDisabled : Bool
  /-- `LY_WRITE_POLICY` (R187). -/
  lyWritePolicy : LyWritePolicy
  /-- `BG_ENABLE_GATE` (R137). -/
  bgEnableGate : Bool
  /-- `OBJ_ENABLE_GATE` (R158). -/
  objEnableGate : Bool
  /-- `TALL_SPRITE_MASK` (R156). -/
  tallSpriteMask : Bool
  /-- `BEHIND_BG_TEST` (R159). -/
  behindBgTest : BehindBgTest
  deriving DecidableEq, Repr

/-- The default of every parameter that R8 gives one, for a launch's `SCALE` and `SHADE_COLOR`. -/
def Params.withDefaults (scale : Nat) (shadeColor : ShadeTable) : Params where
  scale := scale
  fbHeight := .lines160
  shadeColor := shadeColor
  coincidenceWhenDisabled := true
  lyWritePolicy := .store
  bgEnableGate := false
  objEnableGate := false
  tallSpriteMask := false
  behindBgTest := .white

/-- The parameters of the reset state: SCALE 1 as in the standard start state of the test vectors (95, section 0),
and four 24-bit greys from white to black. DESIGN CHOICE, log entry 4: the spec leaves both OPEN. -/
def Params.reset : Params :=
  Params.withDefaults 1 { shade0 := 0xFFFFFF, shade1 := 0xAAAAAA, shade2 := 0x555555, shade3 := 0x000000 }

namespace Config

/-- FREE VALUE (log entry 7). `FB_RESET` (R40, D31): the packed colour that framebuffer element `y * W + x` holds
before any render has written it. -/
opaque fbReset : Nat → Nat

/-- FREE VALUE (log entry 8). What `FbGet` returns outside the framebuffer (R173, D32), for the n-th such read. -/
opaque fbOutOfRange : Nat → Nat

end Config

end Sys2Proof
end

