-- ==== Sys2Proof/Syntax.lean ====
section
/-! DEFINITION. The transactions (R80, R88): one constructor per row of the opcode table, with its operands at
the widths of their fields (R82 to R87). -/

namespace Sys2Proof

/-- The eleven registers of the register file (R20). -/
inductive Reg where
  | lcdc | stat | scy | scx | ly | lyc | bgp | obp0 | obp1 | wy | wx
  deriving DecidableEq, Repr

/-- A transaction. -/
inductive Instr where
  /-- TICK N: N elapsed cycles (R82, R100). -/
  | tick (n : BitVec 16)
  /-- REG_WRITE (R83, R185 to R195): the byte written. -/
  | regWriteLcdc (v : Byte)
  | regWriteStat (v : Byte)
  | regWriteLy (v : Byte)
  | regWriteLyc (v : Byte)
  | regWriteScx (v : Byte)
  | regWriteScy (v : Byte)
  | regWriteWx (v : Byte)
  | regWriteWy (v : Byte)
  | regWriteBgp (v : Byte)
  | regWriteObp0 (v : Byte)
  | regWriteObp1 (v : Byte)
  /-- REG_READ (R83, R196 to R206). -/
  | regReadLcdc
  | regReadStat
  | regReadLy
  | regReadLyc
  | regReadScx
  | regReadScy
  | regReadWx
  | regReadWy
  | regReadBgp
  | regReadObp0
  | regReadObp1
  /-- FB_READ: pixel column and pixel row (R85, R209). -/
  | fbRead (x y : BitVec 14)
  /-- VRAM_WRITE: offset from 0x8000 and the byte written (R86, R207). -/
  | vramWrite (a : BitVec 13) (v : Byte)
  /-- OAM_WRITE: offset 0..159 and the byte written (R87, R208). -/
  | oamWrite (a : BitVec 8) (v : Byte)
  deriving DecidableEq, Repr

/-- The three agents that issue transactions (R7). -/
inductive Agent where
  | driver
  | host
  | presentation
  deriving DecidableEq, Repr

end Sys2Proof
end

