-- ==== Sys2Proof/WellFormed.lean ====
section
/-! DEFINITION. The value constraints that field widths do not express: the OAM offset of a transaction (R87) and the
ranges of the launch parameters (R8). -/

namespace Sys2Proof

/-- An OAM_WRITE offset is 0..159 (R87, R88); every other operand is legal at every value of its field. -/
def Instr.wf : Instr → Bool
  | .tick _ => true
  | .regWriteLcdc _ => true
  | .regWriteStat _ => true
  | .regWriteLy _ => true
  | .regWriteLyc _ => true
  | .regWriteScx _ => true
  | .regWriteScy _ => true
  | .regWriteWx _ => true
  | .regWriteWy _ => true
  | .regWriteBgp _ => true
  | .regWriteObp0 _ => true
  | .regWriteObp1 _ => true
  | .regReadLcdc => true
  | .regReadStat => true
  | .regReadLy => true
  | .regReadLyc => true
  | .regReadScx => true
  | .regReadScy => true
  | .regReadWx => true
  | .regReadWy => true
  | .regReadBgp => true
  | .regReadObp0 => true
  | .regReadObp1 => true
  | .fbRead _ _ => true
  | .vramWrite _ _ => true
  | .oamWrite a _ => a.toNat ≤ 159

/-- The four shade colours are pairwise distinct (R34, D27). -/
def ShadeTable.wf (t : ShadeTable) : Bool :=
  t.shade0 != t.shade1 && t.shade0 != t.shade2 && t.shade0 != t.shade3 &&
    t.shade1 != t.shade2 && t.shade1 != t.shade3 && t.shade2 != t.shade3

/-- The launch parameters are in the ranges of R8. -/
def Params.wf (p : Params) : Bool :=
  1 ≤ p.scale && p.scale ≤ 102 && p.shadeColor.wf

end Sys2Proof
end

