-- ==== Sys2Proof/Decode.lean ====
section
/-! DEFINITION. Decoding a transaction word (R80 to R89), the encoder after it, and the host's entry point. Field
positions are written once, below. -/

namespace Sys2Proof

/-- Why a word encodes no transaction: the reserved encodings of R89. -/
inductive Reject where
  /-- OP is 0x0 or 0x7..0xF. -/
  | reservedOp (op : BitVec 4)
  /-- A bit of a field marked "reserved, must be 0" is set. -/
  | reservedBits
  /-- SEL selects no register of the block. -/
  | reservedSel (sel : Byte)
  /-- REG_READ with a nonzero V field. -/
  | readValue (v : Byte)
  /-- OAM_WRITE with an offset 160..255. -/
  | oamOffset (a : Byte)
  deriving DecidableEq, Repr

/-! ## Fields (R81 to R87) -/

/-- OP, bits 31..28 (R80). -/
def opField (w : Word) : BitVec 4 := w.extractLsb' 28 4

/-- Bits 27..16, reserved in formats T, R and O (R82, R83, R87). -/
def reserved27to16 (w : Word) : BitVec 12 := w.extractLsb' 16 12

/-- Bits 27..21, reserved in format M (R86). -/
def reserved27to21 (w : Word) : BitVec 7 := w.extractLsb' 21 7

/-- N, bits 15..0 of format T (R82). -/
def cyclesField (w : Word) : BitVec 16 := w.extractLsb' 0 16

/-- SEL, bits 15..8 of format R (R83). -/
def selField (w : Word) : Byte := w.extractLsb' 8 8

/-- V, bits 7..0 of formats R, M and O (R83, R86, R87). -/
def valueField (w : Word) : Byte := w.extractLsb' 0 8

/-- X, bits 13..0 of format F (R85). -/
def xField (w : Word) : BitVec 14 := w.extractLsb' 0 14

/-- Y, bits 27..14 of format F (R85). -/
def yField (w : Word) : BitVec 14 := w.extractLsb' 14 14

/-- A, bits 20..8 of format M (R86). -/
def vramField (w : Word) : BitVec 13 := w.extractLsb' 8 13

/-- A, bits 15..8 of format O (R87). -/
def oamField (w : Word) : Byte := w.extractLsb' 8 8

/-! ## Register selects (R84) -/

/-- The select code of each register (R84). -/
def selOf : Reg → Byte
  | .lcdc => 0x40#8
  | .stat => 0x41#8
  | .scy => 0x42#8
  | .scx => 0x43#8
  | .ly => 0x44#8
  | .lyc => 0x45#8
  | .bgp => 0x47#8
  | .obp0 => 0x48#8
  | .obp1 => 0x49#8
  | .wy => 0x4A#8
  | .wx => 0x4B#8

/-- The register a select code names; 0x46 and every code outside R84 name none. -/
def regOfSel (sel : Byte) : Option Reg :=
  [Reg.lcdc, .stat, .scy, .scx, .ly, .lyc, .bgp, .obp0, .obp1, .wy, .wx].find? fun r => selOf r == sel

/-- REG_WRITE of a register (R185 to R195). -/
def regWriteInstr (v : Byte) : Reg → Instr
  | .lcdc => .regWriteLcdc v
  | .stat => .regWriteStat v
  | .scy => .regWriteScy v
  | .scx => .regWriteScx v
  | .ly => .regWriteLy v
  | .lyc => .regWriteLyc v
  | .bgp => .regWriteBgp v
  | .obp0 => .regWriteObp0 v
  | .obp1 => .regWriteObp1 v
  | .wy => .regWriteWy v
  | .wx => .regWriteWx v

/-- REG_READ of a register (R196 to R206). -/
def regReadInstr : Reg → Instr
  | .lcdc => .regReadLcdc
  | .stat => .regReadStat
  | .scy => .regReadScy
  | .scx => .regReadScx
  | .ly => .regReadLy
  | .lyc => .regReadLyc
  | .bgp => .regReadBgp
  | .obp0 => .regReadObp0
  | .obp1 => .regReadObp1
  | .wy => .regReadWy
  | .wx => .regReadWx

/-! ## Decoding -/

/-- Format T (R82). -/
def decodeTick (w : Word) : Except Reject Instr :=
  if reserved27to16 w = 0#12 then .ok (.tick (cyclesField w)) else .error .reservedBits

/-- Format R, OP = 0x2 (R83). -/
def decodeRegWrite (w : Word) : Except Reject Instr :=
  if reserved27to16 w = 0#12 then
    match regOfSel (selField w) with
    | some r => .ok (regWriteInstr (valueField w) r)
    | none => .error (.reservedSel (selField w))
  else .error .reservedBits

/-- Format R, OP = 0x3 (R83): V must be 0. -/
def decodeRegRead (w : Word) : Except Reject Instr :=
  if reserved27to16 w = 0#12 then
    match regOfSel (selField w) with
    | some r => if valueField w = 0#8 then .ok (regReadInstr r) else .error (.readValue (valueField w))
    | none => .error (.reservedSel (selField w))
  else .error .reservedBits

/-- Format F (R85): no reserved bits. -/
def decodeFbRead (w : Word) : Except Reject Instr := .ok (.fbRead (xField w) (yField w))

/-- Format M (R86). -/
def decodeVramWrite (w : Word) : Except Reject Instr :=
  if reserved27to21 w = 0#7 then .ok (.vramWrite (vramField w) (valueField w)) else .error .reservedBits

/-- Format O (R87): the offset is 0..159. -/
def decodeOamWrite (w : Word) : Except Reject Instr :=
  if reserved27to16 w = 0#12 then
    if (oamField w).toNat ≤ 159 then .ok (.oamWrite (oamField w) (valueField w)) else .error (.oamOffset (oamField w))
  else .error .reservedBits

/-- The transaction a word encodes, or why it encodes none (R81, R89). -/
def decode (w : Word) : Except Reject Instr :=
  if opField w = 0x1#4 then decodeTick w
  else if opField w = 0x2#4 then decodeRegWrite w
  else if opField w = 0x3#4 then decodeRegRead w
  else if opField w = 0x4#4 then decodeFbRead w
  else if opField w = 0x5#4 then decodeVramWrite w
  else if opField w = 0x6#4 then decodeOamWrite w
  else .error (.reservedOp (opField w))

/-! ## Encoding (R88, R91) -/

/-- Format T (R82). -/
def encodeTick (n : BitVec 16) : Word := 0x1#4 ++ 0#12 ++ n

/-- Format R (R83). -/
def encodeReg (op : BitVec 4) (r : Reg) (v : Byte) : Word := op ++ 0#12 ++ selOf r ++ v

/-- Format F (R85). -/
def encodeFbRead (x y : BitVec 14) : Word := 0x4#4 ++ y ++ x

/-- Format M (R86). -/
def encodeVramWrite (a : BitVec 13) (v : Byte) : Word := 0x5#4 ++ 0#7 ++ a ++ v

/-- Format O (R87). -/
def encodeOamWrite (a v : Byte) : Word := 0x6#4 ++ 0#12 ++ a ++ v

/-- The word of a transaction. -/
def encode : Instr → Word
  | .tick n => encodeTick n
  | .regWriteLcdc v => encodeReg 0x2#4 .lcdc v
  | .regWriteStat v => encodeReg 0x2#4 .stat v
  | .regWriteLy v => encodeReg 0x2#4 .ly v
  | .regWriteLyc v => encodeReg 0x2#4 .lyc v
  | .regWriteScx v => encodeReg 0x2#4 .scx v
  | .regWriteScy v => encodeReg 0x2#4 .scy v
  | .regWriteWx v => encodeReg 0x2#4 .wx v
  | .regWriteWy v => encodeReg 0x2#4 .wy v
  | .regWriteBgp v => encodeReg 0x2#4 .bgp v
  | .regWriteObp0 v => encodeReg 0x2#4 .obp0 v
  | .regWriteObp1 v => encodeReg 0x2#4 .obp1 v
  | .regReadLcdc => encodeReg 0x3#4 .lcdc 0#8
  | .regReadStat => encodeReg 0x3#4 .stat 0#8
  | .regReadLy => encodeReg 0x3#4 .ly 0#8
  | .regReadLyc => encodeReg 0x3#4 .lyc 0#8
  | .regReadScx => encodeReg 0x3#4 .scx 0#8
  | .regReadScy => encodeReg 0x3#4 .scy 0#8
  | .regReadWx => encodeReg 0x3#4 .wx 0#8
  | .regReadWy => encodeReg 0x3#4 .wy 0#8
  | .regReadBgp => encodeReg 0x3#4 .bgp 0#8
  | .regReadObp0 => encodeReg 0x3#4 .obp0 0#8
  | .regReadObp1 => encodeReg 0x3#4 .obp1 0#8
  | .fbRead x y => encodeFbRead x y
  | .vramWrite a v => encodeVramWrite a v
  | .oamWrite a v => encodeOamWrite a v

/-! ## The opcode table (R88) -/

/-- The match and mask of each row of the opcode table, in the table's order (R88). -/
def opcodeRows : List (Word × Word) :=
  [(0x10000000#32, 0xFFFF0000#32)] ++
  [(0x20004000#32, 0xFFFFFF00#32), (0x20004100#32, 0xFFFFFF00#32), (0x20004400#32, 0xFFFFFF00#32),
    (0x20004500#32, 0xFFFFFF00#32), (0x20004300#32, 0xFFFFFF00#32), (0x20004200#32, 0xFFFFFF00#32),
    (0x20004B00#32, 0xFFFFFF00#32), (0x20004A00#32, 0xFFFFFF00#32), (0x20004700#32, 0xFFFFFF00#32),
    (0x20004800#32, 0xFFFFFF00#32), (0x20004900#32, 0xFFFFFF00#32)] ++
  [(0x30004000#32, 0xFFFFFFFF#32), (0x30004100#32, 0xFFFFFFFF#32), (0x30004400#32, 0xFFFFFFFF#32),
    (0x30004500#32, 0xFFFFFFFF#32), (0x30004300#32, 0xFFFFFFFF#32), (0x30004200#32, 0xFFFFFFFF#32),
    (0x30004B00#32, 0xFFFFFFFF#32), (0x30004A00#32, 0xFFFFFFFF#32), (0x30004700#32, 0xFFFFFFFF#32),
    (0x30004800#32, 0xFFFFFFFF#32), (0x30004900#32, 0xFFFFFFFF#32)] ++
  [(0x40000000#32, 0xF0000000#32), (0x50000000#32, 0xFFE00000#32), (0x60000000#32, 0xFFFF0000#32)]

/-- The encodings R89 reserves, as R89 lists them. -/
def ReservedEncoding (w : Word) : Prop :=
  (opField w = 0x0#4 ∨ 0x7#4 ≤ opField w) ∨
  (opField w ∈ [0x1#4, 0x2#4, 0x3#4, 0x6#4] ∧ reserved27to16 w ≠ 0#12) ∨
  (opField w = 0x5#4 ∧ reserved27to21 w ≠ 0#7) ∨
  (opField w ∈ [0x2#4, 0x3#4] ∧
    selField w ∉ [0x40#8, 0x41#8, 0x42#8, 0x43#8, 0x44#8, 0x45#8, 0x47#8, 0x48#8, 0x49#8, 0x4A#8, 0x4B#8]) ∨
  (opField w = 0x3#4 ∧ valueField w ≠ 0#8) ∨
  (opField w = 0x6#4 ∧ 160 ≤ (oamField w).toNat)

/-! ## The host's entry point -/

/-- The transaction word of an opcode-table row's bits, every bit above `nbits` zero. A transaction is one 32-bit word,
numbered as the table numbers it (R80, R88), so no byte order enters. -/
def tableWord (nbits w : Nat) : Word := BitVec.ofNat 32 (w % 2 ^ nbits)

/-- What the decoder reads from an opcode-table word. -/
def decodeTableWord (nbits w : Nat) : Option Instr :=
  match decode (tableWord nbits w) with
  | .ok i => some i
  | .error _ => none

end Sys2Proof
end

