-- ==== Sys2Proof/Machine/State.lean ====
section
/-! DEFINITION. The state of the block (10_state.md), as plain data, and the state at creation (R40). -/

namespace Sys2Proof.Machine

/-- The four modes (R28, R29). -/
inductive Mode where
  | hblank
  | vblank
  | oamScan
  | vramTransfer
  deriving DecidableEq, Repr

/-- An interrupt kind (R78): VBlank = 0, LCDSTAT = 1. -/
inductive Interrupt where
  | vblank
  | lcdStat
  deriving DecidableEq, Repr

/-- The response to a transaction (R80). -/
inductive Response where
  /-- A write responds with nothing; also the state before any transaction. -/
  | nothing
  /-- A TICK responds with its request list (R221). -/
  | requests (kinds : List Interrupt)
  /-- A REG_READ responds with a byte. -/
  | byte (v : Byte)
  /-- An FB_READ responds with a packed colour. -/
  | colour (c : Nat)
  /-- A word with a reserved encoding is refused (R90). -/
  | refused
  deriving DecidableEq, Repr

/-- The register file (R20). -/
structure Regs where
  lcdc : Byte
  stat : Byte
  ly : Byte
  lyc : Byte
  scx : Byte
  scy : Byte
  wx : Byte
  wy : Byte
  bgp : Byte
  obp0 : Byte
  obp1 : Byte
  deriving DecidableEq, Repr

/-- A byte memory: address and byte pairs, addresses strictly rising, none listed with the byte that an unlisted address
reads as (`Memory.wf`). -/
abbrev Memory := List Host.Cell

/-- A sparse table with natural-number keys, strictly falling (`Table.keysFall`). -/
abbrev Table (α : Type) := List (Nat × α)

/-- The framebuffer (R33): the pixels written since creation, by pixel row and then by pixel column. A pixel that is not
listed still holds its `FB_RESET` draw. -/
abbrev Framebuffer := Table (Table Nat)

/-- The state of the block, of the collaborator memories it reads, and of the transactions still to come. -/
structure State where
  /-- The launch parameters, fixed for the run (R8, R242). -/
  params : Params
  /-- The register file (R20 to R27). -/
  regs : Regs
  /-- The sequencer's mode (R28). -/
  mode : Mode
  /-- The cycle accumulator (R28, R230): an unbounded natural number (D6). -/
  acc : Nat
  /-- VRAM, 0x8000..0x9FFF (R35). -/
  vram : Memory
  /-- OAM, offsets 0..159 (R35). -/
  oam : Memory
  /-- The framebuffer (R33). -/
  fb : Framebuffer
  /-- The request list of the current TICK (R36 (c), R221): empty between transactions. -/
  requests : List Interrupt
  /-- The response to the last transaction (R80). -/
  response : Response
  /-- The refusal mark (R90, R241). -/
  refusalMark : Bool
  /-- The model's own: the transaction words still to be applied, in the one total order of R59 (log entry 1). -/
  input : List Word
  /-- The model's own: how many out-of-range framebuffer reads have been answered (log entry 8). -/
  draws : Nat
  deriving DecidableEq, Repr

/-- Faults. There is none: the block raises no exception and has no fault state (R220), so nothing raises one. -/
inductive Fault where
  deriving DecidableEq, Repr

/-- Refusals of the model, distinct from the spec's refusal of a word, which is a next state (R90, log entry 3). -/
inductive Refusal where
  /-- Raised by `exec` for a transaction with no meaning yet. Safe: the model stops where the block goes on. No arm of
  `exec` raises it now. -/
  | notModelled (mnemonic : String)
  deriving DecidableEq, Repr

/-- Every register 0 at creation. LY is 0 by R40 where the launch gives none; for the others the spec leaves
`REG_RESET` OPEN: DESIGN CHOICE, log entry 5, the standard start state of the test vectors (95, section 0). -/
def Regs.reset : Regs where
  lcdc := 0#8
  stat := 0#8
  ly := 0#8
  lyc := 0#8
  scx := 0#8
  scy := 0#8
  wx := 0#8
  wy := 0#8
  bgp := 0#8
  obp0 := 0#8
  obp1 := 0#8

/-- The state at creation (R40, R240): mode OAMScan, accumulator 0, LY 0, no request, the refusal mark clear, nothing
listed in any memory, no transaction waiting. -/
def State.reset : State where
  params := Params.reset
  regs := Regs.reset
  mode := .oamScan
  acc := 0
  vram := []
  oam := []
  fb := []
  requests := []
  response := .nothing
  refusalMark := false
  input := []
  draws := 0

end Sys2Proof.Machine
end

