-- ==== Sys2Proof/Machine/Ops.lean ====
section
/-! DEFINITION. The named operations over registers, memories and framebuffer (the primitives of R11), the palette mapper and
`FILL` (43_palette_framebuffer.md), and the ways a transaction answers. The block takes no exception and returns from none
(R220, R227, R228); `State.raise` is its one outgoing event. -/

namespace Sys2Proof.Machine

/-! ## Evaluation order -/

/-- `k l`, with `l` evaluated to its first constructor before `k` runs: the value is `k l` (`forced_eq`), and Lean's kernel
evaluates a long run of writes without piling them up. -/
def forced {α β : Type} (l : List α) (k : List α → β) : β :=
  match l with
  | [] => k []
  | e :: r => k (e :: r)

/-! ## Register file (R11, R20) -/

/-- `reg[R]`. -/
def Regs.get (g : Regs) : Reg → Byte
  | .lcdc => g.lcdc
  | .stat => g.stat
  | .scy => g.scy
  | .scx => g.scx
  | .ly => g.ly
  | .lyc => g.lyc
  | .bgp => g.bgp
  | .obp0 => g.obp0
  | .obp1 => g.obp1
  | .wy => g.wy
  | .wx => g.wx

/-- `reg[R] <- v`. -/
def Regs.set (g : Regs) (r : Reg) (v : Byte) : Regs :=
  match r with
  | .lcdc => { g with lcdc := v }
  | .stat => { g with stat := v }
  | .scy => { g with scy := v }
  | .scx => { g with scx := v }
  | .ly => { g with ly := v }
  | .lyc => { g with lyc := v }
  | .bgp => { g with bgp := v }
  | .obp0 => { g with obp0 := v }
  | .obp1 => { g with obp1 := v }
  | .wy => { g with wy := v }
  | .wx => { g with wx := v }

/-- Register R of the register file. -/
def State.reg (s : State) (r : Reg) : Byte := s.regs.get r

/-- The state with register R written. -/
def State.setReg (s : State) (r : Reg) (v : Byte) : State := { s with regs := s.regs.set r v }

/-! ## Byte memories (R51, R53, R207, R208) -/

/-- What an address that no launch and no write has listed reads as. DESIGN CHOICE, log entry 6. -/
def Memory.unlisted : Byte := 0#8

/-- The byte at an address. -/
def Memory.read : Memory → Nat → Byte
  | [], _ => Memory.unlisted
  | (k, b) :: m, a => if k = a then b else Memory.read m a

/-- The memory with one byte written. Writing what an unlisted address reads as removes the entry. -/
def Memory.write : Memory → Nat → Byte → Memory
  | [], a, v => if v = Memory.unlisted then [] else [(a, v)]
  | (k, b) :: m, a, v =>
    if a < k then (if v = Memory.unlisted then (k, b) :: m else (a, v) :: (k, b) :: m)
    else if a = k then (if v = Memory.unlisted then m else (a, v) :: m)
    else forced (Memory.write m a v) fun r => (k, b) :: r

/-- The canonical form: addresses strictly rising, no entry equal to what an unlisted address reads as. -/
def Memory.wf : Memory → Bool
  | [] => true
  | [(_, b)] => b != Memory.unlisted
  | (k, b) :: (k', b') :: m => b != Memory.unlisted && k < k' && Memory.wf ((k', b') :: m)

/-- Every listed address is in `lo..hi-1`. -/
def Memory.within (lo hi : Nat) (m : Memory) : Bool := m.all fun c => lo ≤ c.1 && c.1 < hi

/-- `VramRead(a)` (R51): no side effect. Every address the block forms is in 0x8000..0x9FFF (R52, log entry 20). -/
def State.vramRead (s : State) (a : Nat) : Byte := s.vram.read a

/-- `OamRead(a)` (R53): no side effect. -/
def State.oamRead (s : State) (a : Nat) : Byte := s.oam.read a

/-! ## Sparse tables -/

/-- The entry under a key, if one is listed. -/
def Table.find {α : Type} : Table α → Nat → Option α
  | [], _ => none
  | (j, w) :: t, k => if j = k then some w else Table.find t k

/-- The table with one entry written; the keys stay strictly falling. -/
def Table.put {α : Type} : Table α → Nat → α → Table α
  | [], k, v => [(k, v)]
  | (j, w) :: t, k, v =>
    if j < k then (k, v) :: (j, w) :: t
    else if j = k then (k, v) :: t
    else forced (Table.put t k v) fun r => (j, w) :: r

/-- The keys are strictly falling. -/
def Table.keysFall {α : Type} : Table α → Bool
  | [] => true
  | [_] => true
  | (j, _) :: (j', w') :: t => j' < j && Table.keysFall ((j', w') :: t)

/-! ## Framebuffer (R33, R172 to R176) -/

/-- The logical columns of a line (R9). -/
def columns : Nat := 160

/-- `FB_HEIGHT_LINES` as a number (R8). -/
def fbHeightLines : FbHeight → Nat
  | .lines160 => 160
  | .lines144 => 144

/-- W, the framebuffer's width in pixels (R176). -/
def fbWidth (p : Params) : Nat := 160 * p.scale

/-- H, the framebuffer's height in pixels (R176). -/
def fbHeight (p : Params) : Nat := fbHeightLines p.fbHeight * p.scale

/-- The pixel column and pixel row that (x, y) names, if it lies in the framebuffer: `0 ≤ x < W` and `0 ≤ y < H` (R173, R174;
`pixelAt_eq`). -/
def pixelAt (p : Params) (x y : Int) : Option (Nat × Nat) :=
  match x, y with
  | .ofNat a, .ofNat b => if a < fbWidth p then if b < fbHeight p then some (a, b) else none else none
  | _, _ => none

/-- Pixel (x, y) lies in the framebuffer (R173, R174), in the terms claims use. -/
abbrev Inside (p : Params) (x y : Int) : Prop := 0 ≤ x ∧ x < fbWidth p ∧ 0 ≤ y ∧ y < fbHeight p

/-- Pixel (a, b) belongs to the SCALE × SCALE block of logical pixel (px, L) (R172), in the terms claims use. -/
abbrev Covers (p : Params) (px line : Int) (a b : Nat) : Prop :=
  (px * p.scale ≤ a ∧ (a : Int) < px * p.scale + p.scale) ∧ line * p.scale ≤ b ∧ (b : Int) < line * p.scale + p.scale

/-- The pixel row under a row number; a row with no written pixel is empty. -/
def Framebuffer.row (fb : Framebuffer) (y : Nat) : Table Nat :=
  match Table.find fb y with
  | some r => r
  | none => []

/-- The colour of pixel (x, y) inside the framebuffer: what was last written there, or element `y * W + x` of `FB_RESET`
(R33, R40). -/
def fbPixel (p : Params) (fb : Framebuffer) (x y : Nat) : Nat :=
  match Table.find (Framebuffer.row fb y) x with
  | some c => c
  | none => Config.fbReset (y * fbWidth p + x)

/-- `FbGet(x, y)` (R173): none where the spec leaves the value unspecified. -/
def fbGet (p : Params) (fb : Framebuffer) (x y : Int) : Option Nat :=
  match pixelAt p x y with
  | some (a, b) => some (fbPixel p fb a b)
  | none => none

/-- `FbSet(x, y, c)` (R174): a write outside the framebuffer is dropped. -/
def fbSet (p : Params) (fb : Framebuffer) (x y : Int) (c : Nat) : Framebuffer :=
  match pixelAt p x y with
  | some (a, b) => forced (Table.put (Framebuffer.row fb b) a c) fun r => Table.put fb b r
  | none => fb

/-- The loop `for i in l` over the framebuffer, in list order. -/
def forEach (f : Framebuffer → Nat → Framebuffer) : List Nat → Framebuffer → Framebuffer
  | [], fb => fb
  | i :: l, fb => forced (f fb i) fun fb => forEach f l fb

/-- `FILL(px, L, col)` (R172): the SCALE × SCALE block of a logical pixel. -/
def fill (p : Params) (fb : Framebuffer) (px line : Int) (col : Nat) : Framebuffer :=
  forEach (fun fb dy =>
    forEach (fun fb dx => fbSet p fb (px * p.scale + dx) (line * p.scale + dy) col) (List.range p.scale) fb)
    (List.range p.scale) fb

/-- The framebuffer's canonical form: rows strictly falling, none empty, each with its pixels strictly falling, every
listed pixel inside the framebuffer. -/
def Framebuffer.wf (p : Params) (fb : Framebuffer) : Bool :=
  Table.keysFall fb &&
    fb.all fun (y, r) => y < fbHeight p && !r.isEmpty && Table.keysFall r && r.all fun (x, _) => x < fbWidth p

/-! ## Palette mapper (R170, R171) -/

/-- `PALETTE(cid, p)` (R170): lane `cid` of a palette byte. -/
def palette (cid : BitVec 2) (p : Byte) : BitVec 2 := (p >>> (2 * cid.toNat)).setWidth 2

/-- `SHADE_COLOR[s]` (R171). -/
def shadeColour (t : ShadeTable) (s : BitVec 2) : Nat :=
  match s.toNat with
  | 0 => t.shade0
  | 1 => t.shade1
  | 2 => t.shade2
  | _ => t.shade3

/-- Bit `b` of a byte (R10). -/
def bit (v : Byte) (b : Nat) : Bool := v.getLsbD b

/-- The colour id `{p1[b], p0[b]}` of two plane bytes (R76, R134, R157). -/
def colourId (p0 p1 : Byte) (b : Nat) : BitVec 2 := BitVec.ofBool (bit p1 b) ++ BitVec.ofBool (bit p0 b)

/-- The code of an interrupt kind (R78). -/
def interruptCode : Interrupt → Nat
  | .vblank => 0
  | .lcdStat => 1

/-! ## Responses, requests and the refusal (R11, R80, R90, R221) -/

/-- `raise Request(kind)` (R11, R221): appended to the request list. -/
def State.raise (s : State) (kind : Interrupt) : State := { s with requests := s.requests ++ [kind] }

/-- A request under an enable bit (R103, R106). -/
def State.raiseIf (s : State) (enable : Bool) (kind : Interrupt) : State := if enable then s.raise kind else s

/-- The state with a response. -/
def State.respond (s : State) (r : Response) : State := { s with response := r }

/-- `refuse(reserved_encoding)` (R90): the mark is set, the response is "refused", nothing else changes. -/
def State.refuseWord (s : State) : State := { s with refusalMark := true, response := .refused }

end Sys2Proof.Machine
end

