-- ==== Sys2Proof/Machine/RegRead.lean ====
section
/-! DEFINITION. REG_READ of each register (44_interface_ops.md, section 2), R196 to R206: no side effect but the response. -/

namespace Sys2Proof.Machine

/-- `return R` (R196 to R206). -/
def plainRead (s : State) (r : Reg) : State := s.respond (.byte (s.reg r))

/-- REG_READ LCDC (R196). -/
def execRegReadLcdc (s : State) : Host.Outcome State Fault Refusal := .next (plainRead s .lcdc)

/-- REG_READ STAT (R197). -/
def execRegReadStat (s : State) : Host.Outcome State Fault Refusal := .next (plainRead s .stat)

/-- REG_READ LY (R198). -/
def execRegReadLy (s : State) : Host.Outcome State Fault Refusal := .next (plainRead s .ly)

/-- REG_READ LYC (R199). -/
def execRegReadLyc (s : State) : Host.Outcome State Fault Refusal := .next (plainRead s .lyc)

/-- REG_READ SCX (R200). -/
def execRegReadScx (s : State) : Host.Outcome State Fault Refusal := .next (plainRead s .scx)

/-- REG_READ SCY (R201). -/
def execRegReadScy (s : State) : Host.Outcome State Fault Refusal := .next (plainRead s .scy)

/-- REG_READ WX (R202). -/
def execRegReadWx (s : State) : Host.Outcome State Fault Refusal := .next (plainRead s .wx)

/-- REG_READ WY (R203). -/
def execRegReadWy (s : State) : Host.Outcome State Fault Refusal := .next (plainRead s .wy)

/-- REG_READ BGP (R204). -/
def execRegReadBgp (s : State) : Host.Outcome State Fault Refusal := .next (plainRead s .bgp)

/-- REG_READ OBP0 (R205). -/
def execRegReadObp0 (s : State) : Host.Outcome State Fault Refusal := .next (plainRead s .obp0)

/-- REG_READ OBP1 (R206). -/
def execRegReadObp1 (s : State) : Host.Outcome State Fault Refusal := .next (plainRead s .obp1)

end Sys2Proof.Machine
end

