-- ==== Sys2Proof/Machine/Flags.lean ====
section
/-! DEFINITION. The fields of LCDC (R21, R70) and STAT (R22, R71, R72), and every computation that writes a STAT field. -/

namespace Sys2Proof.Machine

/-! ## LCDC (R70) -/

/-- `display_on = LCDC[7]`. -/
def displayOn (s : State) : Bool := bit s.regs.lcdc 7

/-- `win_map_hi = LCDC[6]`. -/
def winMapHigh (s : State) : Bool := bit s.regs.lcdc 6

/-- `win_on = LCDC[5]`. -/
def winOn (s : State) : Bool := bit s.regs.lcdc 5

/-- `unsigned_tiles = LCDC[4]`. -/
def unsignedTiles (s : State) : Bool := bit s.regs.lcdc 4

/-- `bg_map_hi = LCDC[3]`. -/
def bgMapHigh (s : State) : Bool := bit s.regs.lcdc 3

/-- `tall = LCDC[2]`. -/
def tallSprites (s : State) : Bool := bit s.regs.lcdc 2

/-- `obj_on = LCDC[1]`. -/
def objOn (s : State) : Bool := bit s.regs.lcdc 1

/-- `bg_on = LCDC[0]`. -/
def bgOn (s : State) : Bool := bit s.regs.lcdc 0

/-! ## STAT (R71, R72) -/

/-- The code of a mode (R29, R72). -/
def modeCode : Mode → BitVec 2
  | .hblank => 0#2
  | .vblank => 1#2
  | .oamScan => 2#2
  | .vramTransfer => 3#2

/-- `mode_code = STAT[1:0]`. -/
def statMode (stat : Byte) : BitVec 2 := stat.setWidth 2

/-- `coincidence = STAT[2]`. -/
def statCoincidence (stat : Byte) : Bool := bit stat 2

/-- `ie_hblank = STAT[3]`. -/
def ieHblank (s : State) : Bool := bit s.regs.stat 3

/-- `ie_vblank = STAT[4]`. -/
def ieVblank (s : State) : Bool := bit s.regs.stat 4

/-- `ie_oam = STAT[5]`. -/
def ieOam (s : State) : Bool := bit s.regs.stat 5

/-- `ie_lyc = STAT[6]`. -/
def ieLyc (s : State) : Bool := bit s.regs.stat 6

/-- `STAT[1:0] <- code`; bits 7..2 keep their value (R104, R108). -/
def withStatMode (stat : Byte) (code : BitVec 2) : Byte := (stat &&& 0xFC#8) ||| code.setWidth 8

/-- `STAT[2] <- b`; the other bits keep their value (R106). -/
def withCoincidence (stat : Byte) (b : Bool) : Byte := (stat &&& 0xFB#8) ||| (if b then 0x04#8 else 0#8)

/-- What a host write stores in STAT (R186): V[7:2], with bits 1..0 kept. -/
def hostStat (stat v : Byte) : Byte := (v &&& 0xFC#8) ||| (stat &&& 0x03#8)

/-- What a host write stores in LY (R187). -/
def hostLy (policy : LyWritePolicy) (ly v : Byte) : Byte :=
  match policy with
  | .store => v
  | .resetToZero => 0#8
  | .ignore => ly

end Sys2Proof.Machine
end

