-- ==== Sys2Proof/Machine/Operands.lean ====
section
/-! DEFINITION. The operand forms: how a transaction's fields name cycles, addresses and pixels (R82 to R87), and how the
renderers read the structured data of OAM and of the tile maps (R73 to R79). -/

namespace Sys2Proof.Machine

/-- The elapsed cycles of a TICK, `zext_16` (R82). -/
def tickCycles (n : BitVec 16) : Nat := n.toNat

/-- The byte address `0x8000 + A` of a VRAM_WRITE (R86, R207). -/
def vramAddress (a : BitVec 13) : Nat := 0x8000 + a.toNat

/-- The offset of an OAM_WRITE (R87, R208). -/
def oamAddress (a : Byte) : Nat := a.toNat

/-- A pixel coordinate of an FB_READ, `zext_14` (R85). -/
def pixelCoord (c : BitVec 14) : Int := c.toNat

/-- The tile-map entry of tile row `tr` and tile column `tc` (R79). -/
def mapEntryAddress (base tr tc : Nat) : Nat := base + 32 * tr + tc

/-- `TILE_ADDR(idx)` (R132): unsigned from 0x8000 when LCDC[4] is set, signed from 0x8800 otherwise. -/
def tileAddress (unsignedTiles : Bool) (idx : Byte) : Nat :=
  if unsignedTiles then 0x8000 + 16 * idx.toNat else 0x8800 + 16 * (idx.toInt + 128).toNat

/-- Byte Y of OAM entry i (R73, R151). -/
def oamY (s : State) (i : Nat) : Byte := s.oamRead (4 * i)

/-- Byte X of OAM entry i (R73, R151). -/
def oamX (s : State) (i : Nat) : Byte := s.oamRead (4 * i + 1)

/-- The tile index of OAM entry i (R73, R151). -/
def oamTile (s : State) (i : Nat) : Byte := s.oamRead (4 * i + 2)

/-- The flags byte of OAM entry i (R73, R74). -/
def oamFlags (s : State) (i : Nat) : Byte := s.oamRead (4 * i + 3)

/-- Flags bit 7: behind the background (R74). -/
def flagBehind (f : Byte) : Bool := bit f 7

/-- Flags bit 6: Y flip (R74). -/
def flagYFlip (f : Byte) : Bool := bit f 6

/-- Flags bit 5: X flip (R74). -/
def flagXFlip (f : Byte) : Bool := bit f 5

/-- Flags bit 4: OBP1 (R74). -/
def flagObp1 (f : Byte) : Bool := bit f 4

/-- The agent that issues a transaction (R7, R210): the host's are the register and memory transactions. -/
def agentOf : Instr → Agent
  | .tick _ => .driver
  | .regWriteLcdc _ => .host
  | .regWriteStat _ => .host
  | .regWriteLy _ => .host
  | .regWriteLyc _ => .host
  | .regWriteScx _ => .host
  | .regWriteScy _ => .host
  | .regWriteWx _ => .host
  | .regWriteWy _ => .host
  | .regWriteBgp _ => .host
  | .regWriteObp0 _ => .host
  | .regWriteObp1 _ => .host
  | .regReadLcdc => .host
  | .regReadStat => .host
  | .regReadLy => .host
  | .regReadLyc => .host
  | .regReadScx => .host
  | .regReadScy => .host
  | .regReadWx => .host
  | .regReadWy => .host
  | .regReadBgp => .host
  | .regReadObp0 => .host
  | .regReadObp1 => .host
  | .fbRead _ _ => .presentation
  | .vramWrite _ _ => .host
  | .oamWrite _ _ => .host

end Sys2Proof.Machine
end

