-- ==== Sys2Proof/Machine/RegWrite.lean ====
section
/-! DEFINITION. REG_WRITE of each register (44_interface_ops.md, section 1), R185 to R195. -/

namespace Sys2Proof.Machine

/-- A plain byte set (R185, R188 to R195): every value is legal and stored unchanged, and a write responds with nothing. -/
def plainWrite (s : State) (r : Reg) (v : Byte) : State := (s.setReg r v).respond .nothing

/-- REG_WRITE LCDC (R185): a plain byte set. -/
def execRegWriteLcdc (v : Byte) (s : State) : Host.Outcome State Fault Refusal :=
  .next (plainWrite s .lcdc v)

/-- REG_WRITE STAT (R186): bits 7..2 take V[7:2], bits 1..0 keep their value. -/
def execRegWriteStat (v : Byte) (s : State) : Host.Outcome State Fault Refusal :=
  .next (plainWrite s .stat (hostStat s.regs.stat v))

/-- REG_WRITE LY (R187): per `LY_WRITE_POLICY`. -/
def execRegWriteLy (v : Byte) (s : State) : Host.Outcome State Fault Refusal :=
  .next (plainWrite s .ly (hostLy s.params.lyWritePolicy s.regs.ly v))

/-- REG_WRITE LYC (R188): a plain byte set. -/
def execRegWriteLyc (v : Byte) (s : State) : Host.Outcome State Fault Refusal :=
  .next (plainWrite s .lyc v)

/-- REG_WRITE SCX (R189): a plain byte set. -/
def execRegWriteScx (v : Byte) (s : State) : Host.Outcome State Fault Refusal :=
  .next (plainWrite s .scx v)

/-- REG_WRITE SCY (R190): a plain byte set. -/
def execRegWriteScy (v : Byte) (s : State) : Host.Outcome State Fault Refusal :=
  .next (plainWrite s .scy v)

/-- REG_WRITE WX (R191): a plain byte set. -/
def execRegWriteWx (v : Byte) (s : State) : Host.Outcome State Fault Refusal :=
  .next (plainWrite s .wx v)

/-- REG_WRITE WY (R192): a plain byte set. -/
def execRegWriteWy (v : Byte) (s : State) : Host.Outcome State Fault Refusal :=
  .next (plainWrite s .wy v)

/-- REG_WRITE BGP (R193): a plain byte set. -/
def execRegWriteBgp (v : Byte) (s : State) : Host.Outcome State Fault Refusal :=
  .next (plainWrite s .bgp v)

/-- REG_WRITE OBP0 (R194): a plain byte set. -/
def execRegWriteObp0 (v : Byte) (s : State) : Host.Outcome State Fault Refusal :=
  .next (plainWrite s .obp0 v)

/-- REG_WRITE OBP1 (R195): a plain byte set. -/
def execRegWriteObp1 (v : Byte) (s : State) : Host.Outcome State Fault Refusal :=
  .next (plainWrite s .obp1 v)

end Sys2Proof.Machine
end

