-- ==== Sys2Proof/Machine/Background.lean ====
section
/-! DEFINITION. The background/window scanline renderer (41_bg_window_renderer.md), R130 to R140, pixel by pixel. The fetch
reuse of the source is not observable and is left out (R136). -/

namespace Sys2Proof.Machine

/-- The window test of R130, on integers. -/
def windowActive (s : State) (line px : Nat) : Bool :=
  winOn s && s.regs.wy.toNat ≤ line && (s.regs.wx.toNat : Int) - 7 ≤ px

/-- The map base of the pixel's layer (R131). -/
def layerBase (s : State) (win : Bool) : Nat :=
  if (if win then winMapHigh s else bgMapHigh s) then 0x9C00 else 0x9800

/-- x in the layer: `px - (WX - 7)` in the window, `(SCX + px) mod 256` in the background (R130). -/
def layerX (s : State) (win : Bool) (px : Nat) : Nat :=
  if win then ((px : Int) - ((s.regs.wx.toNat : Int) - 7)).toNat else (s.regs.scx.toNat + px) % 256

/-- y in the layer: `L - WY` in the window, `(SCY + L) mod 256` in the background (R130). -/
def layerY (s : State) (win : Bool) (line : Nat) : Nat :=
  if win then ((line : Int) - s.regs.wy.toNat).toNat else (s.regs.scy.toNat + line) % 256

/-- The tile-map address of layer coordinates (x, y) (R130, R131). -/
def layerMapAddress (s : State) (win : Bool) (x y : Nat) : Nat :=
  mapEntryAddress (layerBase s win) (y / 8 % 32) (x / 8 % 32)

/-- The address of plane 0 of the tile row at layer coordinates (x, y); plane 1 follows it (R133). -/
def layerTileRowAddress (s : State) (win : Bool) (x y : Nat) : Nat :=
  tileAddress (unsignedTiles s) (s.vramRead (layerMapAddress s win x y)) + y % 8 * 2

/-- The colour id at layer coordinates (x, y) (R134). -/
def layerColourId (s : State) (win : Bool) (x y : Nat) : BitVec 2 :=
  colourId (s.vramRead (layerTileRowAddress s win x y)) (s.vramRead (layerTileRowAddress s win x y + 1)) (7 - x % 8)

/-- The colour id of column px of line L (R130). -/
def bgColourId (s : State) (line px : Nat) : BitVec 2 :=
  layerColourId s (windowActive s line px) (layerX s (windowActive s line px) px) (layerY s (windowActive s line px) line)

/-- The packed colour of column px of line L: white where `BG_ENABLE_GATE` blanks the layer (R137), else the colour id
through BGP (R134, R135). -/
def bgColour (s : State) (line px : Nat) : Nat :=
  if s.params.bgEnableGate && !bgOn s then shadeColour s.params.shadeColor 0#2
  else shadeColour s.params.shadeColor (palette (bgColourId s line px) s.regs.bgp)

/-- The framebuffer after the columns of a line (R130, R135). -/
def bgFramebuffer (s : State) (line : Nat) : Framebuffer :=
  forEach (fun fb px => fill s.params fb px line (bgColour s line px)) (List.range columns) s.fb

/-- `RENDER_BG_WINDOW(L)` (R130): only the framebuffer changes. -/
def renderBgWindow (s : State) (line : Nat) : State := { s with fb := bgFramebuffer s line }

end Sys2Proof.Machine
end

