-- ==== Sys2Proof/Machine/Sprites.lean ====
section
/-! DEFINITION. The sprite scanline renderer (42_sprite_renderer.md), R150 to R162. -/

namespace Sys2Proof.Machine

/-- h, the sprite height (R153). -/
def spriteHeight (s : State) : Nat := if tallSprites s then 16 else 8

/-- `top = Y - 16`, an integer (R151). -/
def spriteTop (s : State) (i : Nat) : Int := (oamY s i).toNat - 16

/-- `left = X - 8`, an integer (R151). -/
def spriteLeft (s : State) (i : Nat) : Int := (oamX s i).toNat - 8

/-- Line L falls in the vertical extent of sprite i (R153). -/
def spriteVisible (s : State) (line i : Nat) : Bool :=
  spriteTop s i ≤ line && (line : Int) < spriteTop s i + spriteHeight s

/-- The tile row of sprite i on line L, flipped over the whole height under Y flip (R155). -/
def spriteRow (s : State) (line i : Nat) : Nat :=
  if flagYFlip (oamFlags s i) then spriteHeight s - 1 - ((line : Int) - spriteTop s i).toNat
  else ((line : Int) - spriteTop s i).toNat

/-- The tile index of sprite i; `TALL_SPRITE_MASK` clears its bit 0 in 16-line mode (R156). -/
def spriteTile (s : State) (i : Nat) : Byte :=
  if s.params.tallSpriteMask && tallSprites s then oamTile s i &&& 0xFE#8 else oamTile s i

/-- The address of plane 0 of the sprite's tile row; plane 1 follows it. Always unsigned from 0x8000 (R156). -/
def spriteRowAddress (s : State) (line i : Nat) : Nat :=
  0x8000 + 16 * (spriteTile s i).toNat + 2 * spriteRow s line i

/-- The bit of the plane bytes that column c takes (R157). -/
def spriteBit (f : Byte) (c : Nat) : Nat := if flagXFlip f then c else 7 - c

/-- The colour id of column c of sprite i on line L (R157). -/
def spriteColourId (s : State) (line i c : Nat) : BitVec 2 :=
  colourId (s.vramRead (spriteRowAddress s line i)) (s.vramRead (spriteRowAddress s line i + 1))
    (spriteBit (oamFlags s i) c)

/-- The palette of sprite i (R154). -/
def spritePalette (s : State) (i : Nat) : Byte := if flagObp1 (oamFlags s i) then s.regs.obp1 else s.regs.obp0

/-- The packed colour of column c of sprite i on line L (R154, R171). -/
def spriteColour (s : State) (line i c : Nat) : Nat :=
  shadeColour s.params.shadeColor (palette (spriteColourId s line i c) (spritePalette s i))

/-- The colour a behind-background pixel may replace (R159). -/
def behindColour (s : State) : Nat :=
  match s.params.behindBgTest with
  | .white => shadeColour s.params.shadeColor 0#2
  | .bgpColor0 => shadeColour s.params.shadeColor (palette 0#2 s.regs.bgp)

/-- `BEHIND_OK(px, L)` (R159): the read-back of the top-left pixel of the block (R160). Outside the framebuffer the value
read is unspecified and every write is dropped, so the answer does not matter: false (log entry 9). -/
def behindOk (s : State) (fb : Framebuffer) (px line : Int) : Bool :=
  match fbGet s.params fb (px * s.params.scale) (line * s.params.scale) with
  | some v => v == behindColour s
  | none => false

/-- One column of a sprite (R150): transparent, hidden behind the background, or filled. -/
def drawSpriteColumn (s : State) (line i : Nat) (fb : Framebuffer) (c : Nat) : Framebuffer :=
  if spriteColourId s line i c = 0#2 then fb
  else if !flagBehind (oamFlags s i) || behindOk s fb (spriteLeft s i + c) line then
    fill s.params fb (spriteLeft s i + c) line (spriteColour s line i c)
  else fb

/-- One OAM entry (R150). -/
def drawSprite (s : State) (line : Nat) (fb : Framebuffer) (i : Nat) : Framebuffer :=
  if spriteVisible s line i then forEach (drawSpriteColumn s line i) (List.range 8) fb else fb

/-- OAM entries in scan order, 39 down to 0 (R152). -/
def scanOrder : List Nat := (List.range 40).reverse

/-- The framebuffer after the scan of OAM (R150). `OBJ_ENABLE_GATE` can skip it (R158). -/
def spriteFramebuffer (s : State) (line : Nat) : Framebuffer :=
  if s.params.objEnableGate && !objOn s then s.fb else forEach (drawSprite s line) scanOrder s.fb

/-- `RENDER_SPRITES(L)` (R150): only the framebuffer changes. -/
def renderSprites (s : State) (line : Nat) : State := { s with fb := spriteFramebuffer s line }

end Sys2Proof.Machine
end

