-- ==== Sys2Proof/Machine/Sequencer.lean ====
section
/-! DEFINITION. The cycle accumulator, the mode sequencer, the comparator and the TICK they make up
(40_mode_state_machine.md), R100 to R115. -/

namespace Sys2Proof.Machine

/-- The budget of a mode in cycles (R29). -/
def budget : Mode → Nat
  | .hblank => 204
  | .vblank => 456
  | .oamScan => 80
  | .vramTransfer => 172

/-- The render of the current line: background and window, then sprites (R105). -/
def renderLine (s : State) : State :=
  renderSprites (renderBgWindow s s.regs.ly.toNat) s.regs.ly.toNat

/-- `TRANSITION()` (R102), with the requests of R103 and R107. -/
def transition (s : State) : State :=
  match s.mode with
  | .oamScan => { s with mode := .vramTransfer }
  | .vramTransfer => { renderLine s with mode := .hblank }.raiseIf (ieHblank s) .lcdStat
  | .hblank =>
    if s.regs.ly + 1#8 = 144#8 then
      ({ s.setReg .ly (s.regs.ly + 1#8) with mode := .vblank }.raise .vblank).raiseIf (ieVblank s) .lcdStat
    else { s.setReg .ly (s.regs.ly + 1#8) with mode := .oamScan }.raiseIf (ieOam s) .lcdStat
  | .vblank =>
    if 153 < (s.regs.ly + 1#8).toNat then
      { s.setReg .ly 0#8 with mode := .oamScan }.raiseIf (ieOam s) .lcdStat
    else s.setReg .ly (s.regs.ly + 1#8)

/-- The loop of R101: while the accumulator pays for the current mode, take its budget and one transition. `fuel` bounds the
iterations (R235). -/
def runSequencer : Nat → State → State
  | 0, s => s
  | fuel + 1, s =>
    if budget s.mode ≤ s.acc then runSequencer fuel (transition { s with acc := s.acc - budget s.mode }) else s

/-- Enough iterations for any accumulator: every budget is at least 80 (R235, log entry 13). -/
def sequencerFuel (acc : Nat) : Nat := acc / 80

/-- `COINCIDENCE()` (R106). -/
def coincidence (s : State) : State :=
  if s.regs.ly = s.regs.lyc then (s.setReg .stat (withCoincidence s.regs.stat true)).raiseIf (ieLyc s) .lcdStat
  else s.setReg .stat (withCoincidence s.regs.stat false)

/-- The disable path (R108): the cycles of the TICK are discarded. -/
def disabledTick (s : State) : State :=
  let t := { (s.setReg .ly 0#8).setReg .stat (withStatMode s.regs.stat 0#2) with acc := 0, mode := .oamScan }
  if s.params.coincidenceWhenDisabled then coincidence t else t

/-- The accumulator takes the cycles and the sequencer every transition they pay for (R101). -/
def advance (s : State) (cycles : Nat) : State :=
  forced s.fb fun fb => runSequencer (sequencerFuel (s.acc + cycles)) { s with fb := fb, acc := s.acc + cycles }

/-- `STAT[1:0] <- code(mode)` (R104). -/
def writeStatMode (s : State) : State := s.setReg .stat (withStatMode s.regs.stat (modeCode s.mode))

/-- The path of an enabled TICK (R100). -/
def enabledTick (s : State) (cycles : Nat) : State := coincidence (writeStatMode (advance s cycles))

/-- The request list is the TICK's response, and exists only during the TICK (R36 (c), R221). -/
def emitRequests (s : State) : State := { s with response := .requests s.requests, requests := [] }

/-- `TICK(N)` (R100). -/
def tick (s : State) (cycles : Nat) : State :=
  emitRequests (if displayOn s then enabledTick { s with requests := [] } cycles else disabledTick { s with requests := [] })

/-- TICK N (R100). -/
def execTick (n : BitVec 16) (s : State) : Host.Outcome State Fault Refusal := .next (tick s (tickCycles n))

end Sys2Proof.Machine
end

