-- ==== Sys2Proof/Machine/Transfer.lean ====
section
/-! DEFINITION. The collaborator memory writes and the framebuffer read (44_interface_ops.md, sections 3 and 4), R207 to
R209. -/

namespace Sys2Proof.Machine

/-- FB_READ (R209): the pixel, or outside the framebuffer a free value, the next draw (R173, log entry 8). -/
def execFbRead (x y : BitVec 14) (s : State) : Host.Outcome State Fault Refusal :=
  .next (match fbGet s.params s.fb (pixelCoord x) (pixelCoord y) with
    | some c => s.respond (.colour c)
    | none => { s with response := .colour (Config.fbOutOfRange s.draws), draws := s.draws + 1 })

/-- VRAM_WRITE (R207): accepted in every mode. -/
def execVramWrite (a : BitVec 13) (v : Byte) (s : State) : Host.Outcome State Fault Refusal :=
  .next ({ s with vram := s.vram.write (vramAddress a) v }.respond .nothing)

/-- OAM_WRITE (R208): accepted in every mode. An offset of 160 or more is a reserved encoding, refused as R90 says; the
decoder never yields one (log entry 18). -/
def execOamWrite (a : BitVec 8) (v : Byte) (s : State) : Host.Outcome State Fault Refusal :=
  .next (if (oamAddress a) ≤ 159 then { s with oam := s.oam.write (oamAddress a) v }.respond .nothing else s.refuseWord)

end Sys2Proof.Machine
end

