-- ==== Sys2Proof/Machine/Dispatch.lean ====
section
/-! DEFINITION. One arm per transaction of the opcode table. -/

namespace Sys2Proof.Machine

def exec (i : Instr) (s : State) : Host.Outcome State Fault Refusal :=
  match i with
  | .tick n => Sys2Proof.Machine.execTick n s
  | .regWriteLcdc v => Sys2Proof.Machine.execRegWriteLcdc v s
  | .regWriteStat v => Sys2Proof.Machine.execRegWriteStat v s
  | .regWriteLy v => Sys2Proof.Machine.execRegWriteLy v s
  | .regWriteLyc v => Sys2Proof.Machine.execRegWriteLyc v s
  | .regWriteScx v => Sys2Proof.Machine.execRegWriteScx v s
  | .regWriteScy v => Sys2Proof.Machine.execRegWriteScy v s
  | .regWriteWx v => Sys2Proof.Machine.execRegWriteWx v s
  | .regWriteWy v => Sys2Proof.Machine.execRegWriteWy v s
  | .regWriteBgp v => Sys2Proof.Machine.execRegWriteBgp v s
  | .regWriteObp0 v => Sys2Proof.Machine.execRegWriteObp0 v s
  | .regWriteObp1 v => Sys2Proof.Machine.execRegWriteObp1 v s
  | .regReadLcdc => Sys2Proof.Machine.execRegReadLcdc s
  | .regReadStat => Sys2Proof.Machine.execRegReadStat s
  | .regReadLy => Sys2Proof.Machine.execRegReadLy s
  | .regReadLyc => Sys2Proof.Machine.execRegReadLyc s
  | .regReadScx => Sys2Proof.Machine.execRegReadScx s
  | .regReadScy => Sys2Proof.Machine.execRegReadScy s
  | .regReadWx => Sys2Proof.Machine.execRegReadWx s
  | .regReadWy => Sys2Proof.Machine.execRegReadWy s
  | .regReadBgp => Sys2Proof.Machine.execRegReadBgp s
  | .regReadObp0 => Sys2Proof.Machine.execRegReadObp0 s
  | .regReadObp1 => Sys2Proof.Machine.execRegReadObp1 s
  | .fbRead x y => Sys2Proof.Machine.execFbRead x y s
  | .vramWrite a v => Sys2Proof.Machine.execVramWrite a v s
  | .oamWrite a v => Sys2Proof.Machine.execOamWrite a v s

end Sys2Proof.Machine
end

