-- ==== Sys2Proof/Machine/Step.lean ====
section
/-! DEFINITION. One step: the next transaction word of the total order is taken, decoded and applied, atomically (R6, R56,
R59). -/

namespace Sys2Proof.Machine

/-- One step. With no word waiting the block does nothing (R6, log entry 2). A word with a reserved encoding is refused and
the run goes on with the mark set (R90, log entry 3). -/
def step (s : State) : Host.Outcome State Fault Refusal :=
  match s.input with
  | [] => .next s
  | w :: rest =>
    match decode w with
    | .ok i => exec i { s with input := rest }
    | .error _ => .next (State.refuseWord { s with input := rest })

/-- The state with an opcode-table word placed where the next step takes its transaction: at the head of the input
(log entry 17). -/
def State.withFetchWord (s : State) (nbits w : Nat) : State := { s with input := tableWord nbits w :: s.input }

end Sys2Proof.Machine
end

