-- ==== Sys2Proof/Machine/Assembler.lean ====
section
/-! DEFINITION. The assembler lines and pseudo-instructions of R91 and R92, as abstract lines whose operands are numbers: an
operand out of range is an assembly error, `none`, and no word. -/

namespace Sys2Proof.Machine

/-- A line of R91, or a pseudo-instruction of R92. -/
inductive AsmLine where
  | tick (n : Nat)
  | wr (r : Reg) (v : Nat)
  | rd (r : Reg)
  | fbrd (x y : Nat)
  | vwr (addr v : Nat)
  | owr (off v : Nat)
  | line
  | frame
  | ticks (n : Nat)
  | vfill (addr count v : Nat)
  | ofill (off count v : Nat)
  deriving DecidableEq, Repr

/-- `tick N`, 0 ≤ N ≤ 65535 (R91). -/
def asmTick (n : Nat) : Option Instr := if n ≤ 65535 then some (.tick (BitVec.ofNat 16 n)) else none

/-- `wr REG, V` (R91). -/
def asmWr (r : Reg) (v : Nat) : Option Instr := if v ≤ 255 then some (regWriteInstr (BitVec.ofNat 8 v) r) else none

/-- `fbrd X, Y` (R91). -/
def asmFbrd (x y : Nat) : Option Instr :=
  if x ≤ 16383 ∧ y ≤ 16383 then some (.fbRead (BitVec.ofNat 14 x) (BitVec.ofNat 14 y)) else none

/-- `vwr ADDR, V`, 0x8000 ≤ ADDR ≤ 0x9FFF (R91). -/
def asmVwr (addr v : Nat) : Option Instr :=
  if 0x8000 ≤ addr ∧ addr ≤ 0x9FFF ∧ v ≤ 255 then
    some (.vramWrite (BitVec.ofNat 13 (addr - 0x8000)) (BitVec.ofNat 8 v))
  else none

/-- `owr OFF, V`, 0 ≤ OFF ≤ 159 (R91). -/
def asmOwr (off v : Nat) : Option Instr :=
  if off ≤ 159 ∧ v ≤ 255 then some (.oamWrite (BitVec.ofNat 8 off) (BitVec.ofNat 8 v)) else none

/-- The words of a sequence of one-word lines, none if one of them is in error. -/
def asmSequence (l : List (Option Instr)) : Option (List Word) := (l.mapM id).map fun is => is.map encode

/-- The words of a line (R91, R92). `ticks N` keeps its last `tick` even when it is `tick 0`. -/
def assemble : AsmLine → Option (List Word)
  | .tick n => asmSequence [asmTick n]
  | .wr r v => asmSequence [asmWr r v]
  | .rd r => asmSequence [some (regReadInstr r)]
  | .fbrd x y => asmSequence [asmFbrd x y]
  | .vwr addr v => asmSequence [asmVwr addr v]
  | .owr off v => asmSequence [asmOwr off v]
  | .line => asmSequence [asmTick 456]
  | .frame => asmSequence [asmTick 65535, asmTick 4689]
  | .ticks n => asmSequence (List.replicate (n / 65535) (asmTick 65535) ++ [asmTick (n % 65535)])
  | .vfill addr count v => asmSequence ((List.range count).map fun k => asmVwr (addr + k) v)
  | .ofill off count v => asmSequence ((List.range count).map fun k => asmOwr (off + k) v)

end Sys2Proof.Machine
end

