-- ==== Sys2Proof/Safety.lean ====
section
/-! DEFINITION. The terms claims are stated in: the invariants of R30 and R31, the frame time of R38, the launch premises and
the reachable states of R243. -/

namespace Sys2Proof.Machine

/-- R30 (a): the accumulator is below the budget of the current mode. -/
def AccBelowBudget (s : State) : Prop := s.acc < budget s.mode

/-- R31: LY is 0..153, and the mode is VBlank exactly on lines 144..153. -/
def LineAgrees (s : State) : Prop := s.regs.ly.toNat ≤ 153 ∧ (s.mode = .vblank ↔ 144 ≤ s.regs.ly.toNat)

/-- R30 (b) and (c): STAT[1:0] is the code of the mode, or 0 in the state a disabled TICK leaves. -/
def StatModeAgrees (s : State) : Prop :=
  statMode s.regs.stat = modeCode s.mode ∨ (statMode s.regs.stat = 0#2 ∧ s.mode = .oamScan ∧ s.acc = 0)

/-- The memories and the framebuffer are in canonical form and within their address spaces (R35, R50). -/
structure StorageWf (s : State) : Prop where
  vram_wf : s.vram.wf = true
  vram_within : Memory.within 0x8000 0xA000 s.vram = true
  oam_wf : s.oam.wf = true
  oam_within : Memory.within 0 160 s.oam = true
  fb_wf : Framebuffer.wf s.params s.fb = true

/-- What every step keeps, whatever the agents do: R30 (a), canonical storage, no request list between transactions (R36). -/
structure Inv (s : State) : Prop where
  acc_below : AccBelowBudget s
  storage : StorageWf s
  no_requests : s.requests = []

/-- The offset of a mode in its line (R38). -/
def modeOffset : Mode → Nat
  | .oamScan => 0
  | .vramTransfer => 80
  | .hblank => 252
  | .vblank => 0

/-- The frame time of the sequencer's position (R38). -/
def frameTime (s : State) : Nat := 456 * s.regs.ly.toNat + modeOffset s.mode + s.acc

/-! ## Launch premises (R243) -/

/-- `NoRefusal`. -/
def NoRefusal (s : State) : Prop := s.refusalMark = false

/-- `ModeCreated`. -/
def ModeCreated (s : State) : Prop := s.mode = .oamScan ∧ s.acc = 0

/-- `LineZero`. -/
def LineZero (s : State) : Prop := s.regs.ly = 0#8

/-- `StatAgrees`: STAT[1:0] is OAMScan's code and STAT[2] is LY == LYC. -/
def StatAgrees (s : State) : Prop :=
  statMode s.regs.stat = 2#2 ∧ (statCoincidence s.regs.stat = true ↔ s.regs.ly = s.regs.lyc)

/-- A creation state (R40) with LY ≤ 143: the launch gives the parameters, the registers, the memories, the framebuffer and
the agents' transactions. -/
structure Created (s : State) : Prop where
  params_wf : s.params.wf = true
  mode_created : ModeCreated s
  line_visible : s.regs.ly.toNat ≤ 143
  storage : StorageWf s
  no_requests : s.requests = []
  no_refusal : NoRefusal s

/-- The next transaction is a host write of LY. -/
def NextWritesLy (s : State) : Prop :=
  ∃ w rest v, s.input = w :: rest ∧ decode w = .ok (.regWriteLy v)

/-- `Reachable`: from a creation state with LY ≤ 143 by transactions that include no host write of LY. -/
inductive Reachable : State → Prop where
  | created {s : State} (h : Created s) : Reachable s
  | step {s s' : State} (h : Reachable s) (noLy : ¬ NextWritesLy s) (next : Sys2Proof.Machine.step s = .next s') :
      Reachable s'

/-! ## Runs of TICKs (R110) -/

/-- The state after a list of TICKs. -/
def ticks (s : State) (ns : List (BitVec 16)) : State := ns.foldl (fun s n => tick s (tickCycles n)) s

/-- The requests of the transitions that an enabled TICK takes (R102, R103, R107). -/
def transitionRequests (s : State) (n : BitVec 16) : List Interrupt :=
  (advance { s with requests := [] } (tickCycles n)).requests

/-- The transition requests of a list of TICKs, in order across them. -/
def ticksTransitionRequests : State → List (BitVec 16) → List Interrupt
  | _, [] => []
  | s, n :: ns => transitionRequests s n ++ ticksTransitionRequests (tick s (tickCycles n)) ns

/-- The transitions of the loop of R101, in order: the mode each leaves and the LY it starts with. -/
def transitionsTaken : Nat → State → List (Mode × Byte)
  | 0, _ => []
  | fuel + 1, s =>
    if budget s.mode ≤ s.acc then
      (s.mode, s.regs.ly) :: transitionsTaken fuel (transition { s with acc := s.acc - budget s.mode })
    else []

/-- The transitions of a list of TICKs, in order across them. -/
def ticksTransitions : State → List (BitVec 16) → List (Mode × Byte)
  | _, [] => []
  | s, n :: ns =>
    transitionsTaken (sequencerFuel (s.acc + tickCycles n)) { s with acc := s.acc + tickCycles n } ++
      ticksTransitions (tick s (tickCycles n)) ns

/-- The request the comparator makes in a state (R106). -/
def coincidenceRequests (s : State) : List Interrupt :=
  if s.regs.ly = s.regs.lyc ∧ ieLyc s = true then [.lcdStat] else []

/-! ## Sprites on a line (R150 to R162) -/

/-- What sprite i offers column px of line L, before the background-priority test: its colour where it is visible and
opaque. -/
def spriteOffers (s : State) (line i px : Nat) : Option Nat :=
  if spriteVisible s line i = true ∧ 0 ≤ (px : Int) - spriteLeft s i ∧ (px : Int) - spriteLeft s i < 8 ∧
      spriteColourId s line i ((px : Int) - spriteLeft s i).toNat ≠ 0#2 then
    some (spriteColour s line i ((px : Int) - spriteLeft s i).toNat)
  else none

/-- The column step of R150 as written, with `v` for the unspecified value of a read-back outside the framebuffer (R173). -/
def spriteColumnReading (v : Nat) (s : State) (line i : Nat) (fb : Framebuffer) (c : Nat) : Framebuffer :=
  if spriteColourId s line i c = 0#2 then fb
  else if flagBehind (oamFlags s i) = false ∨
      (fbGet s.params fb ((spriteLeft s i + c) * s.params.scale) (line * s.params.scale)).getD v = behindColour s then
    fill s.params fb (spriteLeft s i + c) line (spriteColour s line i c)
  else fb

end Sys2Proof.Machine
end

