-- ==== Sys2Proof/Certificates/Slice0/Obligations.lean ====
section
/-! DEFINITION. The statements for the provers, and nothing proved about them. -/

open Sys2Proof Sys2Proof.Machine

/-! ## Encoding -/

/-- R80 to R88: decoding the word of any transaction gives the transaction back, whatever its operands. -/
def Obligations.DecodeOfEncode : Prop :=
  ∀ i : Instr, i.wf = true → decode (encode i) = .ok i

/-- R80 to R88: a word that decodes is the word of what it decodes to, so no word has two meanings and no bit of an accepted
word is dropped. -/
def Obligations.EncodeOfDecode : Prop :=
  ∀ (w : Word) (i : Instr), decode w = .ok i → encode i = w ∧ i.wf = true

/-- R88: the decoder accepts exactly the words that match a row of the opcode table and meet its one value constraint; there
are 26 rows, and no word matches two of them. -/
def Obligations.DecoderAcceptsOpcodeTable : Prop :=
  (∀ w : Word, (∃ i, decode w = .ok i) ↔
    (∃ r ∈ opcodeRows, w &&& r.2 = r.1) ∧ (opField w = 0x6#4 → (oamField w).toNat ≤ 159)) ∧
  opcodeRows.length = 26 ∧
  ∀ (w : Word) (j k : Fin 26) (r q : Word × Word), opcodeRows[j.val]? = some r → opcodeRows[k.val]? = some q →
    w &&& r.2 = r.1 → w &&& q.2 = q.1 → j = k

/-- R89: the decoder rejects exactly the encodings R89 reserves. -/
def Obligations.DecoderRejectsReserved : Prop :=
  ∀ w : Word, (∃ r, decode w = .error r) ↔ ReservedEncoding w

/-- R82 to R88, 95 section 7: words written out from the spec's encodings decode to the transactions they stand for, and the
reserved words of section 7 do not decode. -/
def Obligations.SampleWordsDecode : Prop :=
  decode 0x1000FFFF#32 = .ok (.tick 65535#16) ∧
  decode 0x20004091#32 = .ok (.regWriteLcdc 0x91#8) ∧
  decode 0x20004B57#32 = .ok (.regWriteWx 0x57#8) ∧
  decode 0x30004100#32 = .ok .regReadStat ∧
  decode 0x4000413F#32 = .ok (.fbRead 319#14 1#14) ∧
  decode 0x501FFF12#32 = .ok (.vramWrite 0x1FFF#13 0x12#8) ∧
  decode 0x60009F07#32 = .ok (.oamWrite 159#8 0x07#8) ∧
  decode 0x10010000#32 = .error .reservedBits ∧
  decode 0x20004600#32 = .error (.reservedSel 0x46#8) ∧
  decode 0x6000A000#32 = .error (.oamOffset 160#8)

/-- R92: `ticks N` expands to TICKs whose cycles add up to N, and `frame` to the two TICKs of one frame. -/
def Obligations.PseudoTicksAddUp : Prop :=
  (∀ n : Nat, ∃ l : List (BitVec 16), assemble (.ticks n) = some (l.map fun k => encode (.tick k)) ∧
    (l.map tickCycles).sum = n) ∧
  assemble .frame = some [encode (.tick 65535#16), encode (.tick 4689#16)] ∧
  tickCycles 65535#16 + tickCycles 4689#16 = 70224

/-! ## Steps and the refusal -/

/-- R6, R59: when the next word decodes to a transaction, a step is that transaction's effect on the state with the word taken
off the input. That words wait in an input of the state is the model's own (log entry 1). -/
def Obligations.StepRunsDecodedTransaction : Prop :=
  ∀ (s : State) (w : Word) (rest : List Word) (i : Instr), s.input = w :: rest → decode w = .ok i →
    step s = exec i { s with input := rest }

/-- R90: a word with a reserved encoding is refused: the refusal mark is set, the response is "refused" and nothing else
changes but the input, which loses the word; and no step clears the mark. That the run goes on after a refused word is the
model's reading of R90 (log entry 3). -/
def Obligations.ReservedWordIsRefused : Prop :=
  (∀ (s : State) (w : Word) (rest : List Word), s.input = w :: rest → ReservedEncoding w →
    step s = .next { s with input := rest, refusalMark := true, response := .refused }) ∧
  ∀ s t : State, step s = .next t → s.refusalMark = true → t.refusalMark = true

/-- R90, R226: the mark is set by a refused word and by nothing else. -/
def Obligations.MarkOnlyFromReservedWord : Prop :=
  ∀ s t : State, step s = .next t → s.refusalMark = false → t.refusalMark = true →
    ∃ w rest, s.input = w :: rest ∧ ReservedEncoding w

/-- R220: there is no fault, and every step answers a next state. That a step with no word waiting changes nothing, and that a
refused word lets the run go on, are the model's choice (log entries 2 and 3). -/
def Obligations.EveryStepCompletes : Prop := ∀ s : State, ∃ t, step s = .next t

/-- R8, R242: no step changes the parameters of the run. -/
def Obligations.ParametersAreFixed : Prop := ∀ s t : State, step s = .next t → t.params = s.params

/-! ## Reset -/

/-- R40, R241: the values R40 gives at creation. The other fields of the reset state are the model's choice (log entries 4
to 7) and are not stated. -/
def Obligations.ResetState : Prop :=
  State.reset.mode = .oamScan ∧ State.reset.acc = 0 ∧ State.reset.regs.ly = 0#8 ∧ State.reset.requests = [] ∧
    State.reset.refusalMark = false

/-- The invariant of every step holds at reset. -/
def Obligations.ResetMeetsInvariant : Prop := Inv State.reset

/-- R40, R243: the reset state is a creation state and meets `ModeCreated`, `LineZero` and `NoRefusal` (its other fields are
the model's choice, log entries 4 to 7 and 14). With `StatAgrees`, which no source gives it, the STAT[1:0] of a creation state
agrees with the mode before the first TICK. -/
def Obligations.LaunchPremises : Prop :=
  (Created State.reset ∧ ModeCreated State.reset ∧ LineZero State.reset ∧ NoRefusal State.reset) ∧
  ∀ s : State, Created s → StatAgrees s → statMode s.regs.stat = modeCode s.mode ∧ StatModeAgrees s

/-! ## Register transactions -/

/-- R185, R188 to R195: a plain byte set. The register takes the byte, the write responds with nothing, and every other
register and every other part of the state is unchanged. -/
def Obligations.PlainRegisterWrites : Prop :=
  ∀ (s : State) (v : Byte),
    exec (.regWriteLcdc v) s = .next { s with regs := { s.regs with lcdc := v }, response := .nothing } ∧
    exec (.regWriteLyc v) s = .next { s with regs := { s.regs with lyc := v }, response := .nothing } ∧
    exec (.regWriteScx v) s = .next { s with regs := { s.regs with scx := v }, response := .nothing } ∧
    exec (.regWriteScy v) s = .next { s with regs := { s.regs with scy := v }, response := .nothing } ∧
    exec (.regWriteWx v) s = .next { s with regs := { s.regs with wx := v }, response := .nothing } ∧
    exec (.regWriteWy v) s = .next { s with regs := { s.regs with wy := v }, response := .nothing } ∧
    exec (.regWriteBgp v) s = .next { s with regs := { s.regs with bgp := v }, response := .nothing } ∧
    exec (.regWriteObp0 v) s = .next { s with regs := { s.regs with obp0 := v }, response := .nothing } ∧
    exec (.regWriteObp1 v) s = .next { s with regs := { s.regs with obp1 := v }, response := .nothing }

/-- R186: a host write of STAT stores bits 7..2 of the byte and keeps bits 1..0; every other register and every other part of
the state is unchanged. -/
def Obligations.HostStatWrite : Prop :=
  ∀ (s : State) (v : Byte), ∃ stat : Byte,
    exec (.regWriteStat v) s = .next { s with regs := { s.regs with stat := stat }, response := .nothing } ∧
    statMode stat = statMode s.regs.stat ∧ ∀ b, 2 ≤ b → bit stat b = bit v b

/-- R187: a host write of LY stores the byte, 0, or nothing, as `LY_WRITE_POLICY` says; nothing else changes. -/
def Obligations.HostLyWrite : Prop :=
  ∀ (s : State) (v : Byte),
    (s.params.lyWritePolicy = .store →
      exec (.regWriteLy v) s = .next { s with regs := { s.regs with ly := v }, response := .nothing }) ∧
    (s.params.lyWritePolicy = .resetToZero →
      exec (.regWriteLy v) s = .next { s with regs := { s.regs with ly := 0#8 }, response := .nothing }) ∧
    (s.params.lyWritePolicy = .ignore → exec (.regWriteLy v) s = .next { s with response := .nothing })

/-- R196 to R206: a register read responds with the register's byte and changes nothing else. -/
def Obligations.RegisterReads : Prop :=
  ∀ s : State,
    exec .regReadLcdc s = .next { s with response := .byte s.regs.lcdc } ∧
    exec .regReadStat s = .next { s with response := .byte s.regs.stat } ∧
    exec .regReadLy s = .next { s with response := .byte s.regs.ly } ∧
    exec .regReadLyc s = .next { s with response := .byte s.regs.lyc } ∧
    exec .regReadScx s = .next { s with response := .byte s.regs.scx } ∧
    exec .regReadScy s = .next { s with response := .byte s.regs.scy } ∧
    exec .regReadWx s = .next { s with response := .byte s.regs.wx } ∧
    exec .regReadWy s = .next { s with response := .byte s.regs.wy } ∧
    exec .regReadBgp s = .next { s with response := .byte s.regs.bgp } ∧
    exec .regReadObp0 s = .next { s with response := .byte s.regs.obp0 } ∧
    exec .regReadObp1 s = .next { s with response := .byte s.regs.obp1 }

/-- R244: a read after a write of the same register responds with the written byte, but for STAT[1:0], which a host write
keeps, and for LY, whose write follows `LY_WRITE_POLICY`. -/
def Obligations.ReadAfterWrite : Prop :=
  ∀ (s t : State) (r : Reg) (v : Byte), exec (regWriteInstr v r) s = .next t →
    (r ≠ .stat → (r = .ly → s.params.lyWritePolicy = .store) →
      exec (regReadInstr r) t = .next { t with response := .byte v }) ∧
    (r = .stat → ∃ u : Byte, exec (regReadInstr r) t = .next { t with response := .byte u } ∧
      statMode u = statMode s.regs.stat ∧ ∀ b, 2 ≤ b → bit u b = bit v b)

/-- R109, R245: clearing and restoring LCDC with no TICK in between leaves the block as it was. -/
def Obligations.LcdcToggleWithoutTick : Prop :=
  ∀ (s t u : State) (v : Byte), exec (.regWriteLcdc v) s = .next t → exec (.regWriteLcdc s.regs.lcdc) t = .next u →
    u = { s with response := .nothing }

/-! ## Memory and framebuffer transactions -/

/-- R207: VRAM_WRITE stores the byte at 0x8000 + A in every mode; every other byte of VRAM reads as before, VRAM stays
canonical, and nothing else changes. The canonical form is the model's (log entry 6). -/
def Obligations.VramWriteStoresByte : Prop :=
  ∀ (s : State) (a : BitVec 13) (v : Byte), s.vram.wf = true →
    ∃ t, exec (.vramWrite a v) s = .next t ∧
      t = { s with vram := t.vram, response := .nothing } ∧
      t.vramRead (vramAddress a) = v ∧ vramAddress a = 0x8000 + a.toNat ∧
      (∀ x, x ≠ vramAddress a → t.vramRead x = s.vramRead x) ∧ t.vram.wf = true

/-- R208: OAM_WRITE stores the byte at its offset 0..159 in every mode; every other byte of OAM reads as before, OAM stays
canonical, and nothing else changes. An offset of 160 or more, which no word decodes to, is refused (log entry 18). -/
def Obligations.OamWriteStoresByte : Prop :=
  (∀ (s : State) (a v : Byte), a.toNat ≤ 159 → s.oam.wf = true →
    ∃ t, exec (.oamWrite a v) s = .next t ∧
      t = { s with oam := t.oam, response := .nothing } ∧
      t.oamRead (oamAddress a) = v ∧ oamAddress a = a.toNat ∧
      (∀ x, x ≠ oamAddress a → t.oamRead x = s.oamRead x) ∧ t.oam.wf = true) ∧
  ∀ (s : State) (a v : Byte), 160 ≤ a.toNat →
    exec (.oamWrite a v) s = .next { s with refusalMark := true, response := .refused }

/-- R173, R209: FB_READ responds with the pixel's colour and changes nothing else; outside the framebuffer it responds with
some colour, of which nothing is said, and only the model's count of such reads changes (log entry 8). -/
def Obligations.FbReadResponds : Prop :=
  ∀ (s : State) (x y : BitVec 14),
    (Inside s.params x.toNat y.toNat →
      exec (.fbRead x y) s = .next { s with response := .colour (fbPixel s.params s.fb x.toNat y.toNat) }) ∧
    (¬ Inside s.params x.toNat y.toNat →
      ∃ c, exec (.fbRead x y) s = .next { s with response := .colour c, draws := s.draws + 1 })

/-! ## Framebuffer operations -/

/-- R174: FbSet stores the colour in its pixel and no other; outside the framebuffer it does nothing. -/
def Obligations.FbSetStoresOnePixel : Prop :=
  ∀ (p : Params) (fb : Framebuffer) (x y : Int) (c : Nat),
    (Inside p x y → fbGet p (fbSet p fb x y c) x y = some c) ∧
    (∀ x' y' : Int, (x', y') ≠ (x, y) → fbGet p (fbSet p fb x y c) x' y' = fbGet p fb x' y') ∧
    (¬ Inside p x y → fbSet p fb x y c = fb)

/-- R172: FILL sets the SCALE × SCALE block of a logical pixel, as far as it lies in the framebuffer, and no other pixel. -/
def Obligations.FillSetsBlock : Prop :=
  ∀ (p : Params) (fb : Framebuffer) (px line : Int) (col : Nat) (x y : Int),
    (Inside p x y → px * p.scale ≤ x → x ≤ px * p.scale + p.scale - 1 → line * p.scale ≤ y →
      y ≤ line * p.scale + p.scale - 1 → fbGet p (fill p fb px line col) x y = some col) ∧
    (¬ (px * p.scale ≤ x ∧ x ≤ px * p.scale + p.scale - 1 ∧ line * p.scale ≤ y ∧ y ≤ line * p.scale + p.scale - 1) →
      fbGet p (fill p fb px line col) x y = fbGet p fb x y)

/-- R170: PALETTE extracts lane `cid` of the palette byte. And R171's lookup: shade s becomes `SHADE_COLOR[s]`. -/
def Obligations.PaletteLane : Prop :=
  (∀ (cid : BitVec 2) (p : Byte), (palette cid p).toNat = p.toNat / 2 ^ (2 * cid.toNat) % 4) ∧
  (∀ cid : BitVec 2, palette cid 0x00#8 = 0#2 ∧ palette cid 0xFF#8 = 3#2) ∧
  palette 2#2 0xE4#8 = 2#2 ∧ palette 1#2 0x1B#8 = 2#2 ∧
  ∀ t : ShadeTable, shadeColour t 0#2 = t.shade0 ∧ shadeColour t 1#2 = t.shade1 ∧ shadeColour t 2#2 = t.shade2 ∧
    shadeColour t 3#2 = t.shade3

/-- R140: the two addressing modes agree on indexes 128..255 and differ by 0x1000 below. -/
def Obligations.TileAddressModes : Prop :=
  (∀ idx : Byte, 128 ≤ idx.toNat → tileAddress true idx = 0x8000 + 16 * idx.toNat ∧
    (tileAddress false idx : Int) = 0x8800 + 16 * ((idx.toNat : Int) - 256 + 128) ∧
    tileAddress true idx = tileAddress false idx) ∧
  (∀ idx : Byte, idx.toNat < 128 → tileAddress true idx = 0x8000 + 16 * idx.toNat ∧
    tileAddress false idx = 0x9000 + 16 * idx.toNat ∧ tileAddress false idx = tileAddress true idx + 0x1000) ∧
  [0#8, 127#8, 128#8, 200#8, 255#8].map (tileAddress true) = [0x8000, 0x87F0, 0x8800, 0x8C80, 0x8FF0] ∧
  [0#8, 127#8, 128#8, 200#8, 255#8].map (tileAddress false) = [0x9000, 0x97F0, 0x8800, 0x8C80, 0x8FF0]

/-- R52: every address the renderers read. Tile maps are read in 0x9800..0x9FFF, tile data of the layers in 0x8000..0x8FFF or
0x8800..0x97FF by the addressing mode, tile data of a visible sprite in 0x8000..0x900F (its last 16 bytes only by tile 0xFF in
16-line mode without the mask), OAM at offsets 0..159. -/
def Obligations.RenderAddressesInRange : Prop :=
  (∀ (s : State) (win : Bool) (x y : Nat),
    0x9800 ≤ layerMapAddress s win x y ∧ layerMapAddress s win x y ≤ 0x9FFF ∧
    (unsignedTiles s = true → 0x8000 ≤ layerTileRowAddress s win x y ∧ layerTileRowAddress s win x y + 1 ≤ 0x8FFF) ∧
    (unsignedTiles s = false → 0x8800 ≤ layerTileRowAddress s win x y ∧ layerTileRowAddress s win x y + 1 ≤ 0x97FF)) ∧
  (∀ (s : State) (line i : Nat), spriteVisible s line i = true →
    0x8000 ≤ spriteRowAddress s line i ∧ spriteRowAddress s line i + 1 ≤ 0x900F ∧
    (0x9000 ≤ spriteRowAddress s line i + 1 →
      oamTile s i = 0xFF#8 ∧ tallSprites s = true ∧ s.params.tallSpriteMask = false)) ∧
  ∀ i ∈ scanOrder, 4 * i + 3 ≤ 159

/-! ## Background and window -/

/-- R130, R135: rendering a line gives every pixel of its rows the colour of its logical column, and leaves every other pixel
as it was. -/
def Obligations.BackgroundFillsLine : Prop :=
  ∀ (s : State) (line a b : Nat), a < fbWidth s.params → b < fbHeight s.params →
    fbPixel s.params (renderBgWindow s line).fb a b =
      if b / s.params.scale = line then bgColour s line (a / s.params.scale) else fbPixel s.params s.fb a b

/-- R130 to R134: the colour of a column, in the arithmetic of those rules: layer, coordinates, map entry, tile, planes, colour
id, BGP. -/
def Obligations.BackgroundPixel : Prop :=
  ∀ (s : State) (line px x y base tile : Nat) (idx p0 p1 : Byte), px < 160 → line < 256 →
    ¬ (s.params.bgEnableGate = true ∧ bit s.regs.lcdc 0 = false) →
    (bit s.regs.lcdc 5 = true ∧ s.regs.wy.toNat ≤ line ∧ s.regs.wx.toNat ≤ px + 7 →
      x + s.regs.wx.toNat = px + 7 ∧ y + s.regs.wy.toNat = line ∧ base = if bit s.regs.lcdc 6 then 0x9C00 else 0x9800) →
    (¬ (bit s.regs.lcdc 5 = true ∧ s.regs.wy.toNat ≤ line ∧ s.regs.wx.toNat ≤ px + 7) →
      x = (s.regs.scx.toNat + px) % 256 ∧ y = (s.regs.scy.toNat + line) % 256 ∧
        base = if bit s.regs.lcdc 3 then 0x9C00 else 0x9800) →
    idx = s.vramRead (base + 32 * (y / 8) + x / 8) →
    tile = (if bit s.regs.lcdc 4 = false ∧ idx.toNat < 128 then 0x9000 else 0x8000) + 16 * idx.toNat →
    p0 = s.vramRead (tile + 2 * (y % 8)) → p1 = s.vramRead (tile + 2 * (y % 8) + 1) →
    ∃ cid : BitVec 2, cid.toNat = 2 * (bit p1 (7 - x % 8)).toNat + (bit p0 (7 - x % 8)).toNat ∧
      bgColour s line px = shadeColour s.params.shadeColor (palette cid s.regs.bgp)

/-- R138: the window's corner cases (a) to (f), for the 160 columns of a line. -/
def Obligations.WindowCornerCases : Prop :=
  ∀ (s : State) (line px : Nat), px < 160 →
    (line < s.regs.wy.toNat → windowActive s line px = false) ∧
    (winOn s = true → s.regs.wy.toNat ≤ line → s.regs.wx.toNat ≤ 6 →
      windowActive s line px = true ∧ (layerX s true px : Int) = (px : Int) + 7 - s.regs.wx.toNat) ∧
    (winOn s = true → s.regs.wy.toNat ≤ line → s.regs.wx.toNat = 7 →
      windowActive s line px = true ∧ layerX s true px = px) ∧
    (167 ≤ s.regs.wx.toNat → windowActive s line px = false) ∧
    (windowActive s line px = true → (layerY s true line : Int) = (line : Int) - s.regs.wy.toNat) ∧
    (windowActive s line px = true → ∀ scx scy : Byte,
      bgColour { s with regs := { s.regs with scx := scx, scy := scy } } line px = bgColour s line px)

/-- R137, R158: with the gates off, a render does not depend on LCDC[1:0]; with them on, LCDC[0] = 0 gives a white line and
LCDC[1] = 0 draws no sprite. -/
def Obligations.EnableGates : Prop :=
  (∀ (s : State) (lcdc : Byte), s.params.bgEnableGate = false → s.params.objEnableGate = false →
    (∀ b, 2 ≤ b → bit lcdc b = bit s.regs.lcdc b) →
    (renderLine { s with regs := { s.regs with lcdc := lcdc } }).fb = (renderLine s).fb) ∧
  (∀ (s : State) (line px : Nat), s.params.bgEnableGate = true → bit s.regs.lcdc 0 = false →
    bgColour s line px = s.params.shadeColor.shade0) ∧
  ∀ (s : State) (line : Nat), s.params.objEnableGate = true → bit s.regs.lcdc 1 = false →
    (renderSprites s line).fb = s.fb

/-! ## Sprites -/

/-- R153: the height, the vertical extent, and the corner cases of Y and X. -/
def Obligations.SpriteExtent : Prop :=
  (∀ s : State, spriteHeight s = if bit s.regs.lcdc 2 then 16 else 8) ∧
  (∀ (s : State) (line i : Nat), spriteVisible s line i = true ↔
    ((oamY s i).toNat : Int) - 16 ≤ line ∧ (line : Int) < (oamY s i).toNat - 16 + spriteHeight s) ∧
  (∀ (s : State) (line i : Nat), oamY s i = 0#8 → spriteVisible s line i = false) ∧
  (∀ (s : State) (line i : Nat), 160 ≤ (oamY s i).toNat → spriteVisible s line i = true → 144 ≤ line) ∧
  ∀ (s : State) (line i : Nat) (fb : Framebuffer), oamX s i = 0#8 ∨ 168 ≤ (oamX s i).toNat →
    drawSprite s line fb i = fb

/-- R155: on a line where the sprite is visible its tile row is L - top, and h - 1 - (L - top) under Y flip. -/
def Obligations.SpriteRowFlip : Prop :=
  ∀ (s : State) (line i : Nat), spriteVisible s line i = true →
    spriteRow s line i < spriteHeight s ∧
    (bit (oamFlags s i) 6 = false → (spriteRow s line i : Int) = line - spriteTop s i) ∧
    (bit (oamFlags s i) 6 = true → (spriteRow s line i : Int) = spriteHeight s - 1 - (line - spriteTop s i))

/-- R151, R154 to R157: the colour id and colour of a column of a visible sprite, in the arithmetic of those rules: OAM bytes,
tile row, planes, X flip, OBP0 or OBP1. -/
def Obligations.SpriteColumnColour : Prop :=
  ∀ (s : State) (line i c row : Nat) (y t f p0 p1 : Byte), i < 40 → c < 8 →
    y = s.oamRead (4 * i) → t = s.oamRead (4 * i + 2) → f = s.oamRead (4 * i + 3) →
    spriteVisible s line i = true →
    (bit f 6 = false → row + y.toNat = line + 16) →
    (bit f 6 = true → row + line + 16 = y.toNat + (if bit s.regs.lcdc 2 then 15 else 7)) →
    p0 = s.vramRead (0x8000 + 16 * (if s.params.tallSpriteMask = true ∧ bit s.regs.lcdc 2 = true then t.toNat / 2 * 2
      else t.toNat) + 2 * row) →
    p1 = s.vramRead (0x8000 + 16 * (if s.params.tallSpriteMask = true ∧ bit s.regs.lcdc 2 = true then t.toNat / 2 * 2
      else t.toNat) + 2 * row + 1) →
    (spriteColourId s line i c).toNat =
      2 * (bit p1 (if bit f 5 then c else 7 - c)).toNat + (bit p0 (if bit f 5 then c else 7 - c)).toNat ∧
    spriteColour s line i c = shadeColour s.params.shadeColor
      (palette (spriteColourId s line i c) (if bit f 4 then s.regs.obp1 else s.regs.obp0))

/-- R159: an opaque column of a sprite is drawn iff the sprite is above the background or the pixel it would cover holds the
test colour: white, or the shade of BGP's colour id 0; the two readings agree when BGP[1:0] = 0. -/
def Obligations.BehindBackgroundTest : Prop :=
  (∀ (s : State) (line i c a b : Nat) (fb : Framebuffer), a < fbWidth s.params → b < fbHeight s.params →
    spriteColourId s line i c ≠ 0#2 → Covers s.params (spriteLeft s i + c) line a b →
    fbPixel s.params (drawSpriteColumn s line i fb c) a b =
      if bit (oamFlags s i) 7 = false ∨
          fbGet s.params fb ((spriteLeft s i + c) * s.params.scale) (line * s.params.scale) = some (behindColour s) then
        spriteColour s line i c
      else fbPixel s.params fb a b) ∧
  (∀ s : State, s.params.behindBgTest = .white → behindColour s = s.params.shadeColor.shade0) ∧
  (∀ s : State, s.params.behindBgTest = .bgpColor0 →
    behindColour s = shadeColour s.params.shadeColor (palette 0#2 s.regs.bgp)) ∧
  ∀ s : State, palette 0#2 s.regs.bgp = 0#2 → behindColour s = s.params.shadeColor.shade0

/-- R160: the value an out-of-range read-back returns never matters: the column step equals the step as R150 writes it,
whatever that value is. -/
def Obligations.ReadBackValueIrrelevant : Prop :=
  ∀ (v : Nat) (s : State) (line i c : Nat) (fb : Framebuffer),
    drawSpriteColumn s line i fb c = spriteColumnReading v s line i fb c

/-- R152, R161 (a), (b): let sprite i be above the background and offer a colour at a column. If every sprite of lower index
offers nothing there, or is behind the background while the colour is not the test colour, so that it is not drawn, then sprite
i's colour remains, whatever the sprites of higher index do and wherever they stand. -/
def Obligations.LowestIndexWins : Prop :=
  ∀ (s : State) (line i px a b c : Nat), ¬ (s.params.objEnableGate = true ∧ objOn s = false) → i < 40 → px < 160 →
    a < fbWidth s.params → b < fbHeight s.params → Covers s.params px line a b →
    bit (oamFlags s i) 7 = false → spriteOffers s line i px = some c →
    (∀ j < i, spriteOffers s line j px = none ∨ (bit (oamFlags s j) 7 = true ∧ c ≠ behindColour s)) →
    fbPixel s.params (renderSprites s line).fb a b = c

/-- R150, R157: a pixel of the line that no sprite offers a colour, and every pixel of the other lines, is as it was. -/
def Obligations.SpritesLeaveOtherPixels : Prop :=
  ∀ (s : State) (line a b : Nat), a < fbWidth s.params → b < fbHeight s.params →
    (b / s.params.scale ≠ line ∨ ∀ i < 40, spriteOffers s line i (a / s.params.scale) = none) →
    fbPixel s.params (renderSprites s line).fb a b = fbPixel s.params s.fb a b

/-! ## TICK -/

/-- R108: a TICK with the display disabled completes whatever its cycles: LY, the accumulator, the mode and STAT[1:0] are
reset, the comparator runs if `COINCIDENCE_WHEN_DISABLED`, and nothing else changes. -/
def Obligations.DisabledTick : Prop :=
  ∀ (s : State) (n : BitVec 16), displayOn s = false → ∃ t stat, exec (.tick n) s = .next t ∧
    t = { s with
      regs := { s.regs with ly := 0#8, stat := stat }
      mode := .oamScan
      acc := 0
      requests := []
      response := .requests
        (if s.params.coincidenceWhenDisabled = true ∧ s.regs.lyc = 0#8 ∧ bit s.regs.stat 6 = true then [.lcdStat] else []) } ∧
    statMode stat = 0#2 ∧
    (s.params.coincidenceWhenDisabled = true → (statCoincidence stat = true ↔ s.regs.lyc = 0#8)) ∧
    (s.params.coincidenceWhenDisabled = false → statCoincidence stat = statCoincidence s.regs.stat) ∧
    ∀ b, 3 ≤ b → bit stat b = bit s.regs.stat b

/-- R101, R104, R106: every TICK with the display enabled completes with the accumulator below the budget of the mode, STAT[1:0]
the mode's code, STAT[2] whether LY == LYC, STAT[7:3] unchanged, and the response ending with the comparator's request. -/
def Obligations.EnabledTick : Prop :=
  ∀ (s : State) (n : BitVec 16), displayOn s = true → ∃ t, exec (.tick n) s = .next t ∧
    t.acc < budget t.mode ∧
    statMode t.regs.stat = modeCode t.mode ∧
    (statCoincidence t.regs.stat = true ↔ t.regs.ly = t.regs.lyc) ∧
    (∀ b, 3 ≤ b → bit t.regs.stat b = bit s.regs.stat b) ∧
    t.response = .requests (transitionRequests s n ++ coincidenceRequests t) ∧
    t.requests = []

/-- R20, R57, R177: what a TICK leaves unchanged, on either path. -/
def Obligations.TickFrame : Prop :=
  ∀ (s t : State) (n : BitVec 16), exec (.tick n) s = .next t →
    t.params = s.params ∧ t.vram = s.vram ∧ t.oam = s.oam ∧ t.refusalMark = s.refusalMark ∧ t.input = s.input ∧
    t.draws = s.draws ∧
    t.regs = { s.regs with ly := t.regs.ly, stat := t.regs.stat } ∧
    (∀ b, 3 ≤ b → bit t.regs.stat b = bit s.regs.stat b) ∧
    ∀ x, t.vramRead x = s.vramRead x ∧ t.oamRead x = s.oamRead x

/-- R101, R113: a TICK whose cycles do not pay for the current mode takes no transition: only the accumulator and STAT[2:0]
change, and the only request is the comparator's. `tick 0` is such a TICK. -/
def Obligations.TickWithoutTransition : Prop :=
  ∀ (s : State) (n : BitVec 16), displayOn s = true → s.acc + n.toNat < budget s.mode → ∃ t, exec (.tick n) s = .next t ∧
    t = { s with
      regs := { s.regs with stat := t.regs.stat }
      acc := s.acc + n.toNat
      requests := []
      response := .requests (coincidenceRequests s) } ∧
    statMode t.regs.stat = modeCode s.mode ∧
    (statCoincidence t.regs.stat = true ↔ s.regs.ly = s.regs.lyc) ∧
    ∀ b, 3 ≤ b → bit t.regs.stat b = bit s.regs.stat b

/-- R102, R103, row OAMScan: a TICK that pays for the end of OAMScan and no more enters VRAMTransfer, with no request for it
and nothing rendered. -/
def Obligations.OamScanEnds : Prop :=
  ∀ (s : State) (n : BitVec 16), displayOn s = true → s.mode = .oamScan → 80 ≤ s.acc + n.toNat →
    s.acc + n.toNat < 80 + 172 → ∃ t, exec (.tick n) s = .next t ∧
      t.mode = .vramTransfer ∧ t.acc = s.acc + n.toNat - 80 ∧ t.regs.ly = s.regs.ly ∧ t.fb = s.fb ∧
      t.response = .requests (coincidenceRequests t)

/-- R102, R103, R105, row VRAMTransfer: a TICK that pays for the end of VRAMTransfer and no more renders the current line,
background and window then sprites, and enters HBlank, requesting LCDSTAT under STAT[3]. -/
def Obligations.VramTransferEnds : Prop :=
  ∀ (s : State) (n : BitVec 16), displayOn s = true → s.mode = .vramTransfer → 172 ≤ s.acc + n.toNat →
    s.acc + n.toNat < 172 + 204 → ∃ t, exec (.tick n) s = .next t ∧
      t.mode = .hblank ∧ t.acc = s.acc + n.toNat - 172 ∧ t.regs.ly = s.regs.ly ∧
      t.fb = (renderSprites (renderBgWindow s s.regs.ly.toNat) s.regs.ly.toNat).fb ∧
      t.response = .requests ((if bit s.regs.stat 3 = true then [.lcdStat] else []) ++ coincidenceRequests t)

/-- R102, R103, R107, row HBlank: LY steps modulo 256. At 144 the block enters VBlank and requests VBlank, then LCDSTAT under
STAT[4]; otherwise it enters OAMScan, requesting LCDSTAT under STAT[5]. Nothing is rendered. -/
def Obligations.HblankEnds : Prop :=
  ∀ (s : State) (n : BitVec 16), displayOn s = true → s.mode = .hblank → 204 ≤ s.acc + n.toNat →
    s.acc + n.toNat < 204 + (if s.regs.ly.toNat = 143 then 456 else 80) → ∃ t, exec (.tick n) s = .next t ∧
      t.acc = s.acc + n.toNat - 204 ∧ t.regs.ly.toNat = (s.regs.ly.toNat + 1) % 256 ∧ t.fb = s.fb ∧
      (s.regs.ly.toNat = 143 → t.mode = .vblank ∧
        t.response = .requests ([.vblank] ++ (if bit s.regs.stat 4 = true then [.lcdStat] else []) ++
          coincidenceRequests t)) ∧
      (s.regs.ly.toNat ≠ 143 → t.mode = .oamScan ∧
        t.response = .requests ((if bit s.regs.stat 5 = true then [.lcdStat] else []) ++ coincidenceRequests t))

/-- R102, R103, R112, row VBlank: LY steps modulo 256. Past 153 it becomes 0 and the block enters OAMScan, requesting LCDSTAT
under STAT[5]; otherwise VBlank goes on with no request. Nothing is rendered. "Pays for one line end and no more" is a bound by the
budget of the mode that follows. -/
def Obligations.VblankLineEnds : Prop :=
  ∀ (s : State) (n : BitVec 16), displayOn s = true → s.mode = .vblank → 456 ≤ s.acc + n.toNat →
    s.acc + n.toNat < 456 + (if 153 ≤ s.regs.ly.toNat ∧ s.regs.ly.toNat ≤ 254 then 80 else 456) → ∃ t, exec (.tick n) s = .next t ∧
      t.acc = s.acc + n.toNat - 456 ∧ t.fb = s.fb ∧
      (153 ≤ s.regs.ly.toNat ∧ s.regs.ly.toNat ≤ 254 → t.regs.ly = 0#8 ∧ t.mode = .oamScan ∧
        t.response = .requests ((if bit s.regs.stat 5 = true then [.lcdStat] else []) ++ coincidenceRequests t)) ∧
      (s.regs.ly.toNat ≤ 152 ∨ s.regs.ly.toNat = 255 → t.regs.ly.toNat = (s.regs.ly.toNat + 1) % 256 ∧ t.mode = .vblank ∧
        t.response = .requests (coincidenceRequests t))

/-- R106, R115: the coincidence request is level-triggered: while LY == LYC and STAT[6] = 1, `tick 0` requests LCDSTAT every
time, and the condition still holds after it. -/
def Obligations.CoincidenceRefires : Prop :=
  ∀ s : State, displayOn s = true → s.acc < budget s.mode → s.regs.ly = s.regs.lyc → bit s.regs.stat 6 = true →
    ∀ ns : List Unit, ∃ t, ns.foldl (fun o _ => o.bind fun s => match exec (.tick 0#16) s with
        | .next t => some t
        | .fault _ => none
        | .refused _ => none) (some s) = some t ∧
      t.regs.ly = t.regs.lyc ∧ bit t.regs.stat 6 = true ∧ (ns ≠ [] → t.response = .requests [.lcdStat])

/-- R110: take cycles with the display enabled and no host transaction. However they are divided among TICKs, the same
transitions are taken with the same LY at each, the final state is the same but for the last response, and the transition
requests are the same sequence; each TICK's response is its transition requests, then its coincidence request. -/
def Obligations.ChunkingDoesNotMatter : Prop :=
  (∀ (s : State) (ns ms : List (BitVec 16)), displayOn s = true → ns ≠ [] → ms ≠ [] →
    (ns.map tickCycles).sum = (ms.map tickCycles).sum →
    ticksTransitions s ns = ticksTransitions s ms ∧
    ticks s ns = { ticks s ms with response := (ticks s ns).response } ∧
    ticksTransitionRequests s ns = ticksTransitionRequests s ms) ∧
  ∀ (s : State) (n : BitVec 16), displayOn s = true →
    (tick s (tickCycles n)).response =
      .requests (transitionRequests s n ++ coincidenceRequests (tick s (tickCycles n)))

/-- R38: the frame time. In a position of R31 with the accumulator below the budget it is 0..70223, a TICK with the display
enabled moves it on by its cycles modulo 70224, and it determines mode, accumulator and LY; every time is a reachable
position's. -/
def Obligations.FrameTime : Prop :=
  (∀ s : State, LineAgrees s → AccBelowBudget s → frameTime s < 70224) ∧
  (∀ (s : State) (n : BitVec 16), LineAgrees s → AccBelowBudget s → displayOn s = true →
    ∃ t, exec (.tick n) s = .next t ∧ LineAgrees t ∧ AccBelowBudget t ∧
      frameTime t = (frameTime s + n.toNat) % 70224) ∧
  (∀ s t : State, LineAgrees s → AccBelowBudget s → LineAgrees t → AccBelowBudget t → frameTime s = frameTime t →
    s.mode = t.mode ∧ s.acc = t.acc ∧ s.regs.ly = t.regs.ly) ∧
  ∀ k < 70224, ∃ s : State, Reachable s ∧ displayOn s = true ∧ LineAgrees s ∧ AccBelowBudget s ∧ frameTime s = k

/-- R107, R111: the VBlank requests of an enabled TICK are as many as the times its frame time passes 65664 = 144 × 456; so
there is one in a frame. -/
def Obligations.VblankOncePerFrame : Prop :=
  ∀ (s t : State) (n : BitVec 16) (l : List Interrupt), LineAgrees s → AccBelowBudget s → displayOn s = true →
    exec (.tick n) s = .next t → t.response = .requests l →
    l.count .vblank = (frameTime s + n.toNat + 4560) / 70224 - (frameTime s + 4560) / 70224

/-- R63, R250: from the render of line 143 (frame time 65460) to that of line 0 of the next frame (70224 + 252), TICKs leave
the framebuffer unchanged, whether they start before the frame time wraps or after it. -/
def Obligations.StableFrameWindow : Prop :=
  ∀ (s t : State) (n : BitVec 16), LineAgrees s → AccBelowBudget s → displayOn s = true →
    (65460 ≤ frameTime s ∧ frameTime s + n.toNat < 70224 + 252) ∨ frameTime s + n.toNat < 252 → exec (.tick n) s = .next t → t.fb = s.fb

/-- R33, R176: from a position of R31, a TICK leaves the pixel rows below line 143 as they were. -/
def Obligations.RowsBelowDisplayUnwritten : Prop :=
  ∀ (s t : State) (n : BitVec 16) (a b : Nat), LineAgrees s → exec (.tick n) s = .next t → a < fbWidth s.params →
    b < fbHeight s.params → 144 * s.params.scale ≤ b → fbPixel s.params t.fb a b = fbPixel s.params s.fb a b

/-! ## Whole-machine rules -/

/-- R30 (a), R35, R36: from every state that meets the invariant, a step gives a state that meets it: the accumulator is below
the budget, the memories and the framebuffer are canonical (log entries 6 and 12) and within their spaces, no request list is
left over. -/
def Obligations.StepKeepsInvariant : Prop := ∀ s t : State, Inv s → step s = .next t → Inv t

/-- R30 (b), (c): STAT[1:0] agrees with the mode, or is 0 in the state a disabled TICK leaves; every step keeps this, and every
TICK establishes it. -/
def Obligations.StatModeStaysAgreed : Prop :=
  (∀ s t : State, StatModeAgrees s → step s = .next t → StatModeAgrees t) ∧
  ∀ (s t : State) (n : BitVec 16), exec (.tick n) s = .next t → StatModeAgrees t

/-- R31: in every state reached from a creation state with LY ≤ 143 without a host write of LY, LY is 0..153 and the mode is
VBlank exactly on lines 144..153, and one of the other three exactly on lines 0..143; and a TICK with the display disabled
restores this from any state. -/
def Obligations.ReachableLines : Prop :=
  (∀ s : State, Reachable s → s.regs.ly.toNat ≤ 153 ∧
    (s.mode = .vblank ↔ 144 ≤ s.regs.ly.toNat ∧ s.regs.ly.toNat ≤ 153) ∧
    (s.mode = .oamScan ∨ s.mode = .vramTransfer ∨ s.mode = .hblank ↔ s.regs.ly.toNat ≤ 143)) ∧
  ∀ (s t : State) (n : BitVec 16), displayOn s = false → exec (.tick n) s = .next t → LineAgrees t

/-- R177, R221, R229: only the driver's TICK moves the sequencer, makes a request or writes the framebuffer; the presentation
agent's FB_READ changes no register, no memory and no refusal mark; and no host transaction but a write of STAT or LY changes
those registers, none STAT[1:0]. -/
def Obligations.AgentsKeepToTheirState : Prop :=
  (∀ (i : Instr) (s t : State), agentOf i ≠ .driver → exec i s = .next t →
    t.mode = s.mode ∧ t.acc = s.acc ∧ t.fb = s.fb ∧ t.requests = s.requests ∧ t.params = s.params ∧
    statMode t.regs.stat = statMode s.regs.stat ∧ ∀ l, t.response ≠ .requests l) ∧
  (∀ (i : Instr) (s t : State), agentOf i = .presentation → exec i s = .next t →
    t = { s with response := t.response, draws := t.draws }) ∧
  ∀ (i : Instr) (s t : State), agentOf i = .host → exec i s = .next t →
    (∀ v, i ≠ .regWriteStat v) → (∀ v, i ≠ .regWriteLy v) → t.regs.stat = s.regs.stat ∧ t.regs.ly = s.regs.ly
end

