-- ==== Sys2Proof/Laws/Encoding.lean ====
section
/-! SUPPORT. The fields of every encoded word, and every word put together from its fields. -/

namespace Sys2Proof

/-! ## Extracting from an append -/

theorem extract_high {m n : Nat} (a : BitVec m) (b : BitVec n) (k l : Nat) :
    (a ++ b).extractLsb' (n + k) l = a.extractLsb' k l := by
  ext i hi
  simp [BitVec.getElem_extractLsb', BitVec.getLsbD_append]
  grind

theorem extract_low {m n : Nat} (a : BitVec m) (b : BitVec n) (k l : Nat) (h : k + l ≤ n) :
    (a ++ b).extractLsb' k l = b.extractLsb' k l := by
  ext i hi
  have : k + i < n := by omega
  simp [BitVec.getElem_extractLsb', BitVec.getLsbD_append, this]

theorem extract_left {m n : Nat} (a : BitVec m) (b : BitVec n) : (a ++ b).extractLsb' n m = a :=
  (extract_high a b 0 m).trans BitVec.extractLsb'_eq_self

theorem extract_right {m n : Nat} (a : BitVec m) (b : BitVec n) : (a ++ b).extractLsb' 0 n = b :=
  (extract_low a b 0 n (by omega)).trans BitVec.extractLsb'_eq_self

/-! ## Format T -/

theorem opField_encodeTick (n : BitVec 16) : opField (encodeTick n) = 0x1#4 :=
  (extract_high (0x1#4 ++ 0#12) n 12 4).trans (extract_left 0x1#4 0#12)

theorem reserved_encodeTick (n : BitVec 16) : reserved27to16 (encodeTick n) = 0#12 :=
  (extract_high (0x1#4 ++ 0#12) n 0 12).trans (extract_right 0x1#4 0#12)

theorem cyclesField_encodeTick (n : BitVec 16) : cyclesField (encodeTick n) = n :=
  extract_right (0x1#4 ++ 0#12) n

/-! ## Formats R and O: an operation, a zero field and two bytes -/

theorem opField_append (op : BitVec 4) (a v : Byte) : opField (op ++ 0#12 ++ a ++ v) = op :=
  (extract_high (op ++ 0#12 ++ a) v 20 4).trans ((extract_high (op ++ 0#12) a 12 4).trans (extract_left op 0#12))

theorem reserved_append (op : BitVec 4) (a v : Byte) : reserved27to16 (op ++ 0#12 ++ a ++ v) = 0#12 :=
  (extract_high (op ++ 0#12 ++ a) v 8 12).trans ((extract_high (op ++ 0#12) a 0 12).trans (extract_right op 0#12))

theorem selField_append (op : BitVec 4) (a v : Byte) : selField (op ++ 0#12 ++ a ++ v) = a :=
  (extract_high (op ++ 0#12 ++ a) v 0 8).trans (extract_right (op ++ 0#12) a)

theorem valueField_append (op : BitVec 4) (a v : Byte) : valueField (op ++ 0#12 ++ a ++ v) = v :=
  extract_right (op ++ 0#12 ++ a) v

theorem oamField_append (op : BitVec 4) (a v : Byte) : oamField (op ++ 0#12 ++ a ++ v) = a := selField_append op a v

/-! ## Format F -/

theorem opField_encodeFbRead (x y : BitVec 14) : opField (encodeFbRead x y) = 0x4#4 :=
  (extract_high (0x4#4 ++ y) x 14 4).trans (extract_left 0x4#4 y)

theorem yField_encodeFbRead (x y : BitVec 14) : yField (encodeFbRead x y) = y :=
  (extract_high (0x4#4 ++ y) x 0 14).trans (extract_right 0x4#4 y)

theorem xField_encodeFbRead (x y : BitVec 14) : xField (encodeFbRead x y) = x := extract_right (0x4#4 ++ y) x

/-! ## Format M -/

theorem opField_encodeVramWrite (a : BitVec 13) (v : Byte) : opField (encodeVramWrite a v) = 0x5#4 :=
  (extract_high (0x5#4 ++ 0#7 ++ a) v 20 4).trans ((extract_high (0x5#4 ++ 0#7) a 7 4).trans (extract_left 0x5#4 0#7))

theorem reserved_encodeVramWrite (a : BitVec 13) (v : Byte) : reserved27to21 (encodeVramWrite a v) = 0#7 :=
  (extract_high (0x5#4 ++ 0#7 ++ a) v 13 7).trans ((extract_high (0x5#4 ++ 0#7) a 0 7).trans (extract_right 0x5#4 0#7))

theorem vramField_encodeVramWrite (a : BitVec 13) (v : Byte) : vramField (encodeVramWrite a v) = a :=
  (extract_high (0x5#4 ++ 0#7 ++ a) v 0 13).trans (extract_right (0x5#4 ++ 0#7) a)

theorem valueField_encodeVramWrite (a : BitVec 13) (v : Byte) : valueField (encodeVramWrite a v) = v :=
  extract_right (0x5#4 ++ 0#7 ++ a) v

/-! ## Register selects -/

@[simp] theorem regOfSel_selOf (r : Reg) : regOfSel (selOf r) = some r := by cases r <;> rfl

theorem selOf_of_regOfSel {sel : Byte} {r : Reg} (h : regOfSel sel = some r) : selOf r = sel := by
  simpa using List.find?_some h

/-! ## A word from its fields -/

theorem word_eq_formatT (w : Word) : w = opField w ++ reserved27to16 w ++ cyclesField w := by
  ext i hi
  simp only [opField, reserved27to16, cyclesField]
  grind

theorem word_eq_formatR (w : Word) : w = opField w ++ reserved27to16 w ++ selField w ++ valueField w := by
  ext i hi
  simp only [opField, reserved27to16, selField, valueField]
  grind

theorem word_eq_formatF (w : Word) : w = opField w ++ yField w ++ xField w := by
  ext i hi
  simp only [opField, yField, xField]
  grind

theorem word_eq_formatM (w : Word) : w = opField w ++ reserved27to21 w ++ vramField w ++ valueField w := by
  ext i hi
  simp only [opField, reserved27to21, vramField, valueField]
  grind

end Sys2Proof
end

