-- ==== Sys2Proof/Laws/Flags.lean ====
section
/-! SUPPORT. What each STAT computation leaves in each STAT field. -/

namespace Sys2Proof.Machine

theorem bit_and (v w : Byte) (b : Nat) : bit (v &&& w) b = (bit v b && bit w b) := by simp [bit]

theorem bit_or (v w : Byte) (b : Nat) : bit (v ||| w) b = (bit v b || bit w b) := by simp [bit]

theorem bit_of_ge (v : Byte) {b : Nat} (h : 8 ≤ b) : bit v b = false := BitVec.getLsbD_of_ge v b h

/-- Two bytes with the same bits are equal. -/
theorem byte_ext {v w : Byte} (h : ∀ b < 8, bit v b = bit w b) : v = w :=
  BitVec.eq_of_getLsbD_eq fun b hb => h b hb

/-- Bits 7..2 of a STAT value. -/
theorem bit_FC : ∀ b, bit 0xFC#8 b = decide (2 ≤ b ∧ b < 8) := by
  intro b
  rcases Nat.lt_or_ge b 8 with h | h
  · revert b; decide
  · rw [bit_of_ge _ h]; simp; omega

theorem bit_setWidth (c : BitVec 2) (b : Nat) : bit (c.setWidth 8) b = (decide (b < 8) && c.getLsbD b) := by
  simp [bit, BitVec.getLsbD_setWidth]

@[simp] theorem statMode_withStatMode (st : Byte) (c : BitVec 2) : statMode (withStatMode st c) = c := by
  revert st c; decide +kernel

@[simp] theorem bit_withStatMode (st : Byte) (c : BitVec 2) {b : Nat} (h : 2 ≤ b) :
    bit (withStatMode st c) b = bit st b := by
  rcases Nat.lt_or_ge b 8 with h8 | h8
  · simp [withStatMode, bit_or, bit_and, bit_FC, bit_setWidth, h, h8]
  · rw [bit_of_ge _ h8, bit_of_ge _ h8]

@[simp] theorem statMode_withCoincidence (st : Byte) (b : Bool) : statMode (withCoincidence st b) = statMode st := by
  revert st b; decide +kernel

@[simp] theorem statCoincidence_withCoincidence (st : Byte) (b : Bool) :
    statCoincidence (withCoincidence st b) = b := by
  revert st b; decide +kernel

theorem bit_withCoincidence : ∀ (st : Byte) (b : Bool) {k : Nat}, k ≠ 2 → bit (withCoincidence st b) k = bit st k := by
  intro st b k hk
  rcases Nat.lt_or_ge k 8 with h8 | h8
  · have h : ∀ (st : Byte) (b : Bool) (k : Fin 8), k.val ≠ 2 → bit (withCoincidence st b) k = bit st k := by
      decide +kernel
    exact h st b ⟨k, h8⟩ hk
  · rw [bit_of_ge _ h8, bit_of_ge _ h8]

@[simp] theorem statMode_hostStat (st v : Byte) : statMode (hostStat st v) = statMode st := by
  apply BitVec.eq_of_getLsbD_eq
  intro i hi
  have h : i = 0 ∨ i = 1 := by omega
  rcases h with rfl | rfl <;> simp [statMode, hostStat]

theorem bit_hostStat (st v : Byte) {b : Nat} (h : 2 ≤ b) : bit (hostStat st v) b = bit v b := by
  rcases Nat.lt_or_ge b 8 with h8 | h8
  · have h3 : bit 0x03#8 b = false := by
      have : ∀ b : Fin 8, 2 ≤ b.val → bit 0x03#8 b = false := by decide
      exact this ⟨b, h8⟩ h
    simp [hostStat, bit_or, bit_and, bit_FC, h, h8, h3]
  · rw [bit_of_ge _ h8, bit_of_ge _ h8]

end Sys2Proof.Machine
end

