-- ==== Sys2Proof/Laws/Memory.lean ====
section
/-! SUPPORT. Memories and sparse tables: read after write, and that a write keeps the canonical form. -/

namespace Sys2Proof.Machine

/-- `forced` only fixes an evaluation order. -/
@[simp] theorem forced_eq {α β : Type} (l : List α) (k : List α → β) : forced l k = k l := by cases l <;> rfl

/-! ## Byte memories -/

@[simp] theorem Memory.read_nil (a : Nat) : Memory.read [] a = Memory.unlisted := rfl

@[simp] theorem Memory.read_cons (k : Nat) (b : Byte) (m : Memory) (a : Nat) :
    Memory.read ((k, b) :: m) a = if k = a then b else Memory.read m a := rfl

/-- Every address of a canonical memory's tail lies above its head's. -/
theorem Memory.wf_cons {k : Nat} {b : Byte} {m : Memory} :
    Memory.wf ((k, b) :: m) = true ↔
      b ≠ Memory.unlisted ∧ (∀ c ∈ m, k < c.1) ∧ Memory.wf m = true := by
  induction m generalizing k b with
  | nil => simp [Memory.wf]
  | cons c m ih =>
    obtain ⟨k', b'⟩ := c
    simp only [Memory.wf, Bool.and_eq_true, bne_iff_ne, decide_eq_true_eq, List.mem_cons, forall_eq_or_imp]
    constructor
    · rintro ⟨⟨hb, hk⟩, hm⟩
      exact ⟨hb, ⟨hk, fun c hc => lt_trans hk ((ih.1 hm).2.1 c hc)⟩, hm⟩
    · rintro ⟨hb, ⟨hk, -⟩, hm⟩
      exact ⟨⟨hb, hk⟩, hm⟩

/-- An address below every listed one is unlisted. -/
theorem Memory.read_of_lt {m : Memory} {a : Nat} (h : ∀ c ∈ m, a < c.1) : m.read a = Memory.unlisted := by
  induction m with
  | nil => rfl
  | cons c m ih =>
    obtain ⟨k, b⟩ := c
    have hk : k ≠ a := by have := h (k, b) (by simp); simp at this; omega
    rw [Memory.read_cons, if_neg hk]
    exact ih fun c hc => h c (by simp [hc])

/-- A written memory lists only the written address and addresses it listed before. -/
theorem Memory.mem_write {m : Memory} {a : Nat} {v : Byte} {c : Host.Cell} (h : c ∈ m.write a v) :
    c = (a, v) ∨ c ∈ m := by
  induction m with
  | nil =>
    simp only [Memory.write] at h
    split at h <;> simp_all
  | cons d m ih =>
    obtain ⟨k, b⟩ := d
    simp only [Memory.write, forced_eq] at h
    split_ifs at h
    all_goals
      try rw [List.mem_cons] at h
      grind

/-- A write keeps the canonical form. -/
theorem Memory.write_wf {m : Memory} (hm : m.wf = true) (a : Nat) (v : Byte) : (m.write a v).wf = true := by
  induction m with
  | nil => simp only [Memory.write]; split <;> simp_all [Memory.wf]
  | cons d m ih =>
    obtain ⟨k, b⟩ := d
    obtain ⟨hb, hk, hm'⟩ := Memory.wf_cons.1 hm
    simp only [Memory.write, forced_eq]
    split_ifs with h1 h2 h3 h4
    · exact hm
    · refine Memory.wf_cons.2 ⟨h2, fun c hc => ?_, hm⟩
      rcases List.mem_cons.1 hc with rfl | hc
      · exact h1
      · exact lt_trans h1 (hk c hc)
    · exact hm'
    · exact Memory.wf_cons.2 ⟨h4, fun c hc => h3 ▸ hk c hc, hm'⟩
    · refine Memory.wf_cons.2 ⟨hb, fun c hc => ?_, ih hm'⟩
      rcases Memory.mem_write hc with rfl | hc
      · simp; omega
      · exact hk c hc

/-- Reading after a write to a canonical memory: the written byte at the written address, every other byte as before. -/
theorem Memory.read_write {m : Memory} (hm : m.wf = true) (a : Nat) (v : Byte) (x : Nat) :
    (m.write a v).read x = if x = a then v else m.read x := by
  induction m with
  | nil =>
    by_cases hv : v = Memory.unlisted
    · simp [Memory.write, hv]
    · rw [Memory.write, if_neg hv, Memory.read_cons]
      simp only [eq_comm]
  | cons d m ih =>
    obtain ⟨k, b⟩ := d
    obtain ⟨-, hk, hm'⟩ := Memory.wf_cons.1 hm
    have hlow : ∀ y, y ≤ k → Memory.read m y = Memory.unlisted :=
      fun y hy => Memory.read_of_lt fun c hc => lt_of_le_of_lt hy (hk c hc)
    simp only [Memory.write, forced_eq]
    split_ifs <;> (try simp only [Memory.read_cons, ih hm']) <;> grind

/-- A write inside a range keeps a memory within it. -/
theorem Memory.write_within {lo hi : Nat} {m : Memory} (h : Memory.within lo hi m = true) {a : Nat} (v : Byte)
    (ha : lo ≤ a ∧ a < hi) : Memory.within lo hi (m.write a v) = true := by
  simp only [Memory.within, List.all_eq_true, Bool.and_eq_true, decide_eq_true_eq] at h ⊢
  intro c hc
  rcases Memory.mem_write hc with rfl | hc
  · exact ha
  · exact h c hc

/-! ## Sparse tables -/

variable {α : Type}

/-- Reading after a put, whatever the order of the keys. -/
theorem Table.find_put (t : Table α) (k : Nat) (v : α) (j : Nat) :
    Table.find (Table.put t k v) j = if j = k then some v else Table.find t j := by
  induction t with
  | nil => simp only [Table.put, Table.find]; grind
  | cons e t ih =>
    obtain ⟨i, w⟩ := e
    simp only [Table.put, forced_eq]
    split_ifs <;> simp only [Table.find] <;> grind

/-- A put table lists only the put key and keys it listed before. -/
theorem Table.mem_put {t : Table α} {k : Nat} {v : α} {e : Nat × α} (h : e ∈ Table.put t k v) :
    e = (k, v) ∨ e ∈ t := by
  induction t with
  | nil => simpa [Table.put] using h
  | cons d t ih =>
    simp only [Table.put, forced_eq] at h
    split_ifs at h <;> grind

theorem Table.put_ne_nil (t : Table α) (k : Nat) (v : α) : Table.put t k v ≠ [] := by
  cases t with
  | nil => simp [Table.put]
  | cons e t => simp only [Table.put, forced_eq]; split_ifs <;> simp

theorem Table.keysFall_cons {j : Nat} {w : α} {t : Table α} :
    Table.keysFall ((j, w) :: t) = true ↔ (∀ e ∈ t, e.1 < j) ∧ Table.keysFall t = true := by
  induction t generalizing j w with
  | nil => simp [Table.keysFall]
  | cons e t ih =>
    obtain ⟨j', w'⟩ := e
    simp only [Table.keysFall, Bool.and_eq_true, decide_eq_true_eq, List.mem_cons, forall_eq_or_imp]
    constructor
    · rintro ⟨hj, ht⟩
      exact ⟨⟨hj, fun e he => lt_trans ((ih.1 ht).1 e he) hj⟩, ht⟩
    · rintro ⟨⟨hj, -⟩, ht⟩
      exact ⟨hj, ht⟩

/-- A put keeps the keys strictly falling. -/
theorem Table.keysFall_put {t : Table α} (h : Table.keysFall t = true) (k : Nat) (v : α) :
    Table.keysFall (Table.put t k v) = true := by
  induction t with
  | nil => rfl
  | cons e t ih =>
    obtain ⟨j, w⟩ := e
    obtain ⟨hj, ht⟩ := Table.keysFall_cons.1 h
    simp only [Table.put, forced_eq]
    split_ifs with h1 h2
    · refine Table.keysFall_cons.2 ⟨fun e he => ?_, h⟩
      rcases List.mem_cons.1 he with rfl | he
      · exact h1
      · exact lt_trans (hj e he) h1
    · exact Table.keysFall_cons.2 ⟨fun e he => h2 ▸ hj e he, ht⟩
    · refine Table.keysFall_cons.2 ⟨fun e he => ?_, ih ht⟩
      rcases Table.mem_put he with rfl | he
      · simp; omega
      · exact hj e he

end Sys2Proof.Machine
end

