-- ==== Sys2Proof/Laws/Framebuffer.lean ====
section
/-! SUPPORT. The framebuffer: what FbGet, FbSet, FILL and a loop of writes leave in each pixel, and that they keep its
canonical form. -/

namespace Sys2Proof.Machine

/-- The bounds check of R173 and R174. -/
theorem pixelAt_eq (p : Params) (x y : Int) :
    pixelAt p x y =
      if 0 ≤ x ∧ x < fbWidth p ∧ 0 ≤ y ∧ y < fbHeight p then some (x.toNat, y.toNat) else none := by
  cases x <;> cases y
  · simp only [pixelAt, Int.ofNat_eq_natCast, Int.natCast_nonneg, Nat.cast_lt, Int.toNat_natCast, true_and]
    split_ifs <;> simp_all
  all_goals
    simp only [pixelAt]
    rw [if_neg (by omega)]

theorem pixelAt_of_inside {p : Params} {x y : Int} (h : Inside p x y) : pixelAt p x y = some (x.toNat, y.toNat) := by
  rw [pixelAt_eq, if_pos h]

theorem pixelAt_of_outside {p : Params} {x y : Int} (h : ¬ Inside p x y) : pixelAt p x y = none := by
  rw [pixelAt_eq, if_neg h]

theorem fbGet_of_inside {p : Params} (fb : Framebuffer) {x y : Int} (h : Inside p x y) :
    fbGet p fb x y = some (fbPixel p fb x.toNat y.toNat) := by
  simp [fbGet, pixelAt_of_inside h]

theorem fbGet_of_outside {p : Params} (fb : Framebuffer) {x y : Int} (h : ¬ Inside p x y) : fbGet p fb x y = none := by
  simp [fbGet, pixelAt_of_outside h]

/-- FbGet is some value exactly inside the framebuffer. -/
theorem fbGet_eq_some {p : Params} {fb : Framebuffer} {x y : Int} {c : Nat} :
    fbGet p fb x y = some c ↔ Inside p x y ∧ fbPixel p fb x.toNat y.toNat = c := by
  by_cases h : Inside p x y
  · rw [fbGet_of_inside fb h, Option.some.injEq]
    exact (and_iff_right h).symm
  · rw [fbGet_of_outside fb h]
    exact ⟨fun hc => by simp at hc, fun hc => absurd hc.1 h⟩

theorem fbSet_of_inside {p : Params} (fb : Framebuffer) {x y : Int} (c : Nat) (h : Inside p x y) :
    fbSet p fb x y c = Table.put fb y.toNat (Table.put (Framebuffer.row fb y.toNat) x.toNat c) := by
  simp [fbSet, pixelAt_of_inside h]

/-- A write outside the framebuffer is dropped (R174). -/
theorem fbSet_of_outside {p : Params} (fb : Framebuffer) {x y : Int} (c : Nat) (h : ¬ Inside p x y) :
    fbSet p fb x y c = fb := by
  simp [fbSet, pixelAt_of_outside h]

theorem Framebuffer.row_put (fb : Framebuffer) (b : Nat) (r : Table Nat) (b' : Nat) :
    Framebuffer.row (Table.put fb b r) b' = if b' = b then r else Framebuffer.row fb b' := by
  simp only [Framebuffer.row, Table.find_put]
  split_ifs <;> rfl

/-- What FbSet leaves in each pixel. -/
theorem fbPixel_fbSet (p : Params) (fb : Framebuffer) (x y : Int) (c a b : Nat) :
    fbPixel p (fbSet p fb x y c) a b =
      if Inside p x y ∧ (a : Int) = x ∧ (b : Int) = y then c else fbPixel p fb a b := by
  by_cases h : Inside p x y
  · have hx : 0 ≤ x := h.1
    have hy : 0 ≤ y := h.2.2.1
    rw [fbSet_of_inside fb c h]
    simp only [fbPixel, Framebuffer.row_put]
    by_cases hb : b = y.toNat
    · rw [if_pos hb, Table.find_put]
      by_cases ha : a = x.toNat
      · rw [if_pos ha, if_pos ⟨h, by omega, by omega⟩]
      · rw [if_neg ha, if_neg fun hc => ha (by omega), hb]
    · rw [if_neg hb, if_neg fun hc => hb (by omega)]
  · rw [fbSet_of_outside fb c h, if_neg fun hc => h hc.1]

/-! ## Loops -/

/-- The loop is a left fold. -/
theorem forEach_eq_foldl (f : Framebuffer → Nat → Framebuffer) (l : List Nat) (fb : Framebuffer) :
    forEach f l fb = l.foldl f fb := by
  induction l generalizing fb with
  | nil => rfl
  | cons i l ih => simp [forEach, ih]

@[simp] theorem forEach_nil (f : Framebuffer → Nat → Framebuffer) (fb : Framebuffer) : forEach f [] fb = fb := rfl

@[simp] theorem forEach_cons (f : Framebuffer → Nat → Framebuffer) (i : Nat) (l : List Nat) (fb : Framebuffer) :
    forEach f (i :: l) fb = forEach f l (f fb i) := by simp [forEach]

theorem forEach_append (f : Framebuffer → Nat → Framebuffer) (l l' : List Nat) (fb : Framebuffer) :
    forEach f (l ++ l') fb = forEach f l' (forEach f l fb) := by
  simp [forEach_eq_foldl]

/-- What every iteration keeps, the loop keeps. -/
theorem forEach_keeps {P : Framebuffer → Prop} {f : Framebuffer → Nat → Framebuffer} {l : List Nat}
    (hf : ∀ i ∈ l, ∀ fb, P fb → P (f fb i)) {fb : Framebuffer} (h : P fb) : P (forEach f l fb) := by
  induction l generalizing fb with
  | nil => exact h
  | cons i l ih =>
    rw [forEach_cons]
    exact ih (fun j hj => hf j (by simp [hj])) (hf i (by simp) fb h)

/-- A pixel that no iteration writes keeps its colour. -/
theorem forEach_pixel_unwritten {p : Params} {f : Framebuffer → Nat → Framebuffer} {l : List Nat} {a b : Nat}
    (hf : ∀ i ∈ l, ∀ fb, fbPixel p (f fb i) a b = fbPixel p fb a b) (fb : Framebuffer) :
    fbPixel p (forEach f l fb) a b = fbPixel p fb a b := by
  induction l generalizing fb with
  | nil => rfl
  | cons i l ih =>
    rw [forEach_cons, ih (fun j hj => hf j (by simp [hj])), hf i (by simp)]

/-- A pixel that the iterations `i` with `D i` write, all with the same colour, holds that colour if there is one. -/
theorem forEach_pixel_written {p : Params} {f : Framebuffer → Nat → Framebuffer} {l : List Nat} {a b : Nat}
    {D : Nat → Prop} [DecidablePred D] {c : Nat → Nat}
    (hf : ∀ i ∈ l, ∀ fb, fbPixel p (f fb i) a b = if D i then c i else fbPixel p fb a b)
    {k : Nat} (hk : k ∈ l) (hD : D k) (hc : ∀ i ∈ l, D i → c i = c k) (fb : Framebuffer) :
    fbPixel p (forEach f l fb) a b = c k := by
  induction l generalizing fb k with
  | nil => simp at hk
  | cons i l ih =>
    rw [forEach_cons]
    by_cases hl : ∃ j ∈ l, D j
    · obtain ⟨j, hj, hDj⟩ := hl
      have hcj := hc j (by simp [hj]) hDj
      rw [← hcj]
      exact ih (fun i hi => hf i (by simp [hi])) hj hDj (fun i hi hDi => (hc i (by simp [hi]) hDi).trans hcj.symm) _
    · have hlast : k = i := by
        rcases List.mem_cons.1 hk with h | h
        · exact h
        · exact absurd ⟨k, h, hD⟩ hl
      subst hlast
      rw [forEach_pixel_unwritten (fun j hj fb => by
        rw [hf j (by simp [hj]), if_neg fun h => hl ⟨j, hj, h⟩])]
      rw [hf k (by simp), if_pos hD]

/-! ## FILL -/

theorem fillRow_pixel (p : Params) (fb : Framebuffer) (x y : Int) (col : Nat) {a b : Nat} (ha : a < fbWidth p)
    (hb : b < fbHeight p) (n : Nat) :
    fbPixel p (forEach (fun fb dx => fbSet p fb (x + dx) y col) (List.range n) fb) a b =
      if (x ≤ a ∧ (a : Int) < x + n) ∧ (b : Int) = y then col else fbPixel p fb a b := by
  have hset : ∀ i fb, fbPixel p (fbSet p fb (x + i) y col) a b =
      if (a : Int) = x + i ∧ (b : Int) = y then col else fbPixel p fb a b := by
    intro i fb
    rw [fbPixel_fbSet]
    have : (Inside p (x + i) y ∧ (a : Int) = x + i ∧ (b : Int) = y) ↔ ((a : Int) = x + i ∧ (b : Int) = y) := by
      unfold Inside; omega
    simp only [this]
  split_ifs with h
  · refine forEach_pixel_written (D := fun i : Nat => (a : Int) = x + i ∧ (b : Int) = y) (c := fun _ => col)
      (k := (a - x).toNat) (fun i _ fb => hset i fb) ?_ ?_ (fun _ _ _ => rfl) fb
    · rw [List.mem_range]; omega
    · exact ⟨by omega, h.2⟩
  · refine forEach_pixel_unwritten (fun i hi fb => ?_) fb
    rw [hset, if_neg]
    rw [List.mem_range] at hi
    omega

/-- What FILL leaves in each pixel of the framebuffer (R172). -/
theorem fbPixel_fill (p : Params) (fb : Framebuffer) (px line : Int) (col : Nat) {a b : Nat} (ha : a < fbWidth p)
    (hb : b < fbHeight p) :
    fbPixel p (fill p fb px line col) a b = if Covers p px line a b then col else fbPixel p fb a b := by
  have hrow := fun (i : Nat) fb => fillRow_pixel p fb (px * p.scale) (line * p.scale + i) col ha hb p.scale
  unfold fill
  split_ifs with h
  · obtain ⟨hx, hy⟩ := h
    refine forEach_pixel_written
      (D := fun i : Nat => (px * p.scale ≤ a ∧ (a : Int) < px * p.scale + p.scale) ∧ (b : Int) = line * p.scale + i)
      (c := fun _ => col) (k := (b - line * p.scale).toNat) (fun i _ fb => hrow i fb) ?_ ?_ (fun _ _ _ => rfl) fb
    · rw [List.mem_range]; omega
    · exact ⟨hx, by omega⟩
  · refine forEach_pixel_unwritten (fun i hi fb => ?_) fb
    rw [hrow, if_neg]
    rw [List.mem_range] at hi
    intro hc
    exact h ⟨hc.1, by omega, by omega⟩

/-- FILL of a logical pixel none of whose block lies in the framebuffer changes nothing (R174). -/
theorem fill_of_outside (p : Params) (fb : Framebuffer) {px line : Int} (col : Nat)
    (h : ∀ dx dy : Nat, dx < p.scale → dy < p.scale → ¬ Inside p (px * p.scale + dx) (line * p.scale + dy)) :
    fill p fb px line col = fb := by
  unfold fill
  refine forEach_keeps (P := fun g => g = fb) (fun dy hdy g hg => ?_) rfl
  refine forEach_keeps (P := fun g => g = fb) (fun dx hdx g' hg' => ?_) hg
  rw [List.mem_range] at hdx hdy
  rw [fbSet_of_outside _ _ (h dx dy hdx hdy), hg']

/-! ## Canonical form -/

theorem Table.mem_of_find {α : Type} {t : Table α} {k : Nat} {v : α} (h : Table.find t k = some v) : (k, v) ∈ t := by
  induction t with
  | nil => simp [Table.find] at h
  | cons e t ih =>
    obtain ⟨j, w⟩ := e
    simp only [Table.find] at h
    split_ifs at h with hj
    · obtain rfl : w = v := by simpa using h
      simp [hj]
    · exact List.mem_cons_of_mem _ (ih h)

/-- FbSet keeps the canonical form. -/
theorem fbSet_wf {p : Params} {fb : Framebuffer} (h : Framebuffer.wf p fb = true) (x y : Int) (c : Nat) :
    Framebuffer.wf p (fbSet p fb x y c) = true := by
  by_cases hin : Inside p x y
  · rw [fbSet_of_inside fb c hin]
    simp only [Framebuffer.wf, Bool.and_eq_true, List.all_eq_true, decide_eq_true_eq, Bool.not_eq_true',
      List.isEmpty_eq_false_iff] at h ⊢
    obtain ⟨hfall, hall⟩ := h
    refine ⟨Table.keysFall_put hfall _ _, fun e he => ?_⟩
    rcases Table.mem_put he with rfl | he
    · refine ⟨⟨⟨by have := hin.2.2; omega, Table.put_ne_nil _ _ _⟩, ?_⟩, fun q hq => ?_⟩
      · apply Table.keysFall_put
        unfold Framebuffer.row
        split
        · exact (hall _ (Table.mem_of_find ‹_›)).1.2
        · rfl
      · rcases Table.mem_put hq with rfl | hq
        · have := hin.1; have := hin.2.1; simp only; omega
        · unfold Framebuffer.row at hq
          split at hq
          · exact (hall _ (Table.mem_of_find ‹_›)).2 q hq
          · simp at hq
    · exact hall e he
  · rw [fbSet_of_outside fb c hin]; exact h

/-- FILL keeps the canonical form. -/
theorem fill_wf {p : Params} {fb : Framebuffer} (h : Framebuffer.wf p fb = true) (px line : Int) (col : Nat) :
    Framebuffer.wf p (fill p fb px line col) = true :=
  forEach_keeps (P := fun g => Framebuffer.wf p g = true)
    (fun _ _ _ hg => forEach_keeps (P := fun g => Framebuffer.wf p g = true) (fun _ _ _ hg => fbSet_wf hg _ _ _) hg) h

end Sys2Proof.Machine
end

