-- ==== Sys2Proof/Laws/PerInstr.lean ====
section
/-! SUPPORT. Facts about every transaction as syntax, one lemma per constructor. -/

namespace Sys2Proof.Laws.RowMatch

/-- The transaction's word matches a row of the opcode table (R88). -/
def Statement (i : Instr) : Prop := ∃ r ∈ opcodeRows, encode i &&& r.2 = r.1

theorem tick (n : BitVec 16) : Statement (.tick n) :=
  ⟨(0x10000000#32, 0xFFFF0000#32), by decide,
    (BitVec.and_append (x₁ := 0x1#4 ++ 0#12) (y₁ := n) (x₂ := 0xFFFF#16) (y₂ := 0#16)).trans (by simp)⟩

/-- A word of format R matches every row that masks its value field. -/
theorem encodeReg_masked (op : BitVec 4) (r : Reg) (v : Byte) :
    encodeReg op r v &&& 0xFFFFFF00#32 = encodeReg op r 0#8 :=
  (BitVec.and_append (x₁ := op ++ 0#12 ++ selOf r) (y₁ := v) (x₂ := 0xFFFFFF#24) (y₂ := 0#8)).trans (by
    rw [show (0xFFFFFF#24) = BitVec.allOnes 24 from rfl, BitVec.and_allOnes, BitVec.and_zero]; rfl)

theorem regWriteLcdc (v : Byte) : Statement (.regWriteLcdc v) :=
  ⟨(0x20004000#32, 0xFFFFFF00#32), by decide, encodeReg_masked 0x2#4 .lcdc v⟩

theorem regWriteStat (v : Byte) : Statement (.regWriteStat v) :=
  ⟨(0x20004100#32, 0xFFFFFF00#32), by decide, encodeReg_masked 0x2#4 .stat v⟩

theorem regWriteLy (v : Byte) : Statement (.regWriteLy v) :=
  ⟨(0x20004400#32, 0xFFFFFF00#32), by decide, encodeReg_masked 0x2#4 .ly v⟩

theorem regWriteLyc (v : Byte) : Statement (.regWriteLyc v) :=
  ⟨(0x20004500#32, 0xFFFFFF00#32), by decide, encodeReg_masked 0x2#4 .lyc v⟩

theorem regWriteScx (v : Byte) : Statement (.regWriteScx v) :=
  ⟨(0x20004300#32, 0xFFFFFF00#32), by decide, encodeReg_masked 0x2#4 .scx v⟩

theorem regWriteScy (v : Byte) : Statement (.regWriteScy v) :=
  ⟨(0x20004200#32, 0xFFFFFF00#32), by decide, encodeReg_masked 0x2#4 .scy v⟩

theorem regWriteWx (v : Byte) : Statement (.regWriteWx v) :=
  ⟨(0x20004B00#32, 0xFFFFFF00#32), by decide, encodeReg_masked 0x2#4 .wx v⟩

theorem regWriteWy (v : Byte) : Statement (.regWriteWy v) :=
  ⟨(0x20004A00#32, 0xFFFFFF00#32), by decide, encodeReg_masked 0x2#4 .wy v⟩

theorem regWriteBgp (v : Byte) : Statement (.regWriteBgp v) :=
  ⟨(0x20004700#32, 0xFFFFFF00#32), by decide, encodeReg_masked 0x2#4 .bgp v⟩

theorem regWriteObp0 (v : Byte) : Statement (.regWriteObp0 v) :=
  ⟨(0x20004800#32, 0xFFFFFF00#32), by decide, encodeReg_masked 0x2#4 .obp0 v⟩

theorem regWriteObp1 (v : Byte) : Statement (.regWriteObp1 v) :=
  ⟨(0x20004900#32, 0xFFFFFF00#32), by decide, encodeReg_masked 0x2#4 .obp1 v⟩

theorem regReadLcdc : Statement .regReadLcdc := ⟨(0x30004000#32, 0xFFFFFFFF#32), by decide, by decide⟩

theorem regReadStat : Statement .regReadStat := ⟨(0x30004100#32, 0xFFFFFFFF#32), by decide, by decide⟩

theorem regReadLy : Statement .regReadLy := ⟨(0x30004400#32, 0xFFFFFFFF#32), by decide, by decide⟩

theorem regReadLyc : Statement .regReadLyc := ⟨(0x30004500#32, 0xFFFFFFFF#32), by decide, by decide⟩

theorem regReadScx : Statement .regReadScx := ⟨(0x30004300#32, 0xFFFFFFFF#32), by decide, by decide⟩

theorem regReadScy : Statement .regReadScy := ⟨(0x30004200#32, 0xFFFFFFFF#32), by decide, by decide⟩

theorem regReadWx : Statement .regReadWx := ⟨(0x30004B00#32, 0xFFFFFFFF#32), by decide, by decide⟩

theorem regReadWy : Statement .regReadWy := ⟨(0x30004A00#32, 0xFFFFFFFF#32), by decide, by decide⟩

theorem regReadBgp : Statement .regReadBgp := ⟨(0x30004700#32, 0xFFFFFFFF#32), by decide, by decide⟩

theorem regReadObp0 : Statement .regReadObp0 := ⟨(0x30004800#32, 0xFFFFFFFF#32), by decide, by decide⟩

theorem regReadObp1 : Statement .regReadObp1 := ⟨(0x30004900#32, 0xFFFFFFFF#32), by decide, by decide⟩

theorem fbRead (x y : BitVec 14) : Statement (.fbRead x y) :=
  ⟨(0x40000000#32, 0xF0000000#32), by decide,
    (BitVec.and_append (x₁ := 0x4#4 ++ y) (y₁ := x) (x₂ := 0xF#4 ++ 0#14) (y₂ := 0#14)).trans (by
      rw [BitVec.and_append, BitVec.and_zero, BitVec.and_zero]; rfl)⟩

theorem vramWrite (a : BitVec 13) (v : Byte) : Statement (.vramWrite a v) :=
  ⟨(0x50000000#32, 0xFFE00000#32), by decide,
    (BitVec.and_append (x₁ := 0x5#4 ++ 0#7 ++ a) (y₁ := v) (x₂ := 0x7FF#11 ++ 0#13) (y₂ := 0#8)).trans (by
      rw [BitVec.and_append, BitVec.and_zero, BitVec.and_zero]; rfl)⟩

theorem oamWrite (a v : Byte) : Statement (.oamWrite a v) :=
  ⟨(0x60000000#32, 0xFFFF0000#32), by decide,
    (BitVec.and_append (x₁ := 0x6#4 ++ 0#12 ++ a) (y₁ := v) (x₂ := 0xFFFF#16 ++ 0#8) (y₂ := 0#8)).trans (by
      rw [BitVec.and_append, BitVec.and_zero, BitVec.and_zero]; rfl)⟩

end Sys2Proof.Laws.RowMatch
end

