-- ==== Sys2Proof/Laws/Render.lean ====
section
/-! SUPPORT. The renderers keep the framebuffer's canonical form and write only rows of their line. -/

namespace Sys2Proof.Machine

/-! ## Canonical form -/

theorem bgFramebuffer_wf {s : State} (h : Framebuffer.wf s.params s.fb = true) (line : Nat) :
    Framebuffer.wf s.params (bgFramebuffer s line) = true :=
  forEach_keeps (P := fun g => Framebuffer.wf s.params g = true) (fun _ _ _ hg => fill_wf hg _ _ _) h

theorem drawSpriteColumn_wf {s : State} {fb : Framebuffer} (h : Framebuffer.wf s.params fb = true) (line i c : Nat) :
    Framebuffer.wf s.params (drawSpriteColumn s line i fb c) = true := by
  unfold drawSpriteColumn
  split_ifs
  · exact h
  · exact fill_wf h _ _ _
  · exact h

theorem drawSprite_wf {s : State} {fb : Framebuffer} (h : Framebuffer.wf s.params fb = true) (line i : Nat) :
    Framebuffer.wf s.params (drawSprite s line fb i) = true := by
  unfold drawSprite
  split_ifs
  · exact forEach_keeps (P := fun g => Framebuffer.wf s.params g = true) (fun c _ _ hg => drawSpriteColumn_wf hg line i c) h
  · exact h

theorem spriteFramebuffer_wf {s : State} (h : Framebuffer.wf s.params s.fb = true) (line : Nat) :
    Framebuffer.wf s.params (spriteFramebuffer s line) = true := by
  unfold spriteFramebuffer
  split_ifs
  · exact h
  · exact forEach_keeps (P := fun g => Framebuffer.wf s.params g = true) (fun i _ _ hg => drawSprite_wf hg line i) h

/-! ## One column of a sprite -/

/-- What one column of a sprite leaves in each pixel (R150, R159). -/
theorem fbPixel_drawSpriteColumn (s : State) (line i : Nat) (fb : Framebuffer) (c : Nat) {a b : Nat}
    (ha : a < fbWidth s.params) (hb : b < fbHeight s.params) :
    fbPixel s.params (drawSpriteColumn s line i fb c) a b =
      if spriteColourId s line i c ≠ 0#2 ∧
          (flagBehind (oamFlags s i) = false ∨ behindOk s fb (spriteLeft s i + c) line = true) ∧
          Covers s.params (spriteLeft s i + c) line a b then
        spriteColour s line i c
      else fbPixel s.params fb a b := by
  unfold drawSpriteColumn
  by_cases h0 : spriteColourId s line i c = 0#2
  · rw [if_pos h0, if_neg fun h => h.1 h0]
  · rw [if_neg h0]
    by_cases hd : flagBehind (oamFlags s i) = false ∨ behindOk s fb (spriteLeft s i + c) line = true
    · rw [if_pos (by simpa using hd), fbPixel_fill _ _ _ _ _ ha hb]
      simp only [h0, hd, ne_eq, not_false_eq_true, true_and]
    · rw [if_neg (by simpa using hd), if_neg fun h => hd h.2.1]

/-- A sprite writes no pixel outside the rows of its line. -/
theorem fbPixel_drawSprite_other (s : State) (line : Nat) (fb : Framebuffer) (i : Nat) {a b : Nat}
    (ha : a < fbWidth s.params) (hb : b < fbHeight s.params)
    (h : ¬ ((line : Int) * s.params.scale ≤ b ∧ (b : Int) < line * s.params.scale + s.params.scale)) :
    fbPixel s.params (drawSprite s line fb i) a b = fbPixel s.params fb a b := by
  unfold drawSprite
  split_ifs
  · refine forEach_pixel_unwritten (fun c _ g => ?_) fb
    rw [fbPixel_drawSpriteColumn _ _ _ _ _ ha hb, if_neg fun hc => h hc.2.2.2]
  · rfl

/-! ## Blocks and columns -/

/-- A framebuffer with a pixel has a positive scale. -/
theorem scale_pos {p : Params} {b : Nat} (hb : b < fbHeight p) : 0 < p.scale := by
  unfold fbHeight at hb
  rcases Nat.eq_zero_or_pos p.scale with h | h
  · simp [h] at hb
  · exact h

/-- The row of a pixel that a block covers is the block's line. -/
theorem row_of_covers {p : Params} {px : Int} {line a b : Nat} (hb : b < fbHeight p) (h : Covers p px line a b) :
    b / p.scale = line := by
  obtain ⟨-, h1, h2⟩ := h
  norm_cast at h1 h2
  exact (Nat.div_eq_iff (scale_pos hb)).2 (by constructor <;> omega)

/-- On the rows of its line a pixel is covered by the block of its own logical column and by no other. -/
theorem covers_iff {p : Params} {px : Int} {line a b : Nat} (hb : b < fbHeight p) (hl : b / p.scale = line) :
    Covers p px line a b ↔ px = ((a / p.scale : Nat) : Int) := by
  have hpos := scale_pos hb
  subst hl
  have h1 := Nat.div_mul_le_self b p.scale
  have h2 := Nat.lt_div_mul_add (a := b) hpos
  have h3 := Nat.div_mul_le_self a p.scale
  have h4 := Nat.lt_div_mul_add (a := a) hpos
  unfold Covers
  constructor
  · rintro ⟨⟨c1, c2⟩, -⟩
    rcases lt_trichotomy px ((a / p.scale : Nat) : Int) with h | h | h
    · have hm : (px + 1) * (p.scale : Int) ≤ ((a / p.scale : Nat) : Int) * p.scale :=
        Int.mul_le_mul_of_nonneg_right (by omega) (by omega)
      have h3' : ((a / p.scale : Nat) : Int) * p.scale ≤ a := by exact_mod_cast h3
      rw [Int.add_mul] at hm
      omega
    · exact h
    · have hm : (((a / p.scale : Nat) : Int) + 1) * (p.scale : Int) ≤ px * p.scale :=
        Int.mul_le_mul_of_nonneg_right (by omega) (by omega)
      have h4' : (a : Int) < ((a / p.scale : Nat) : Int) * p.scale + p.scale := by exact_mod_cast h4
      rw [Int.add_mul] at hm
      omega
  · rintro rfl
    norm_cast

/-- A block outside the 160 columns or the framebuffer's rows is dropped (R174). -/
theorem fill_dropped (p : Params) {px line : Int} (fb : Framebuffer) (c : Nat)
    (h : px < 0 ∨ 160 ≤ px ∨ line < 0 ∨ (fbHeight p : Int) ≤ line * p.scale) : fill p fb px line c = fb := by
  apply fill_of_outside
  intro dx dy h1 h2 hi
  unfold Inside fbWidth at hi
  have hs : (0 : Int) ≤ p.scale := by omega
  rcases h with h | h | h | h
  · have hm : px * p.scale ≤ -1 * p.scale := Int.mul_le_mul_of_nonneg_right (by omega) hs
    omega
  · have hm : 160 * (p.scale : Int) ≤ px * p.scale := Int.mul_le_mul_of_nonneg_right (by omega) hs
    push_cast at hi; omega
  · have hm : line * p.scale ≤ -1 * p.scale := Int.mul_le_mul_of_nonneg_right (by omega) hs
    omega
  · omega

/-! ## Where a sprite is visible -/

/-- The vertical extent of R153, in integers. -/
theorem spriteVisible_iff (s : State) (line i : Nat) : spriteVisible s line i = true ↔
    ((oamY s i).toNat : Int) - 16 ≤ line ∧ (line : Int) < (oamY s i).toNat - 16 + spriteHeight s := by
  unfold spriteVisible spriteTop
  rw [Bool.and_eq_true, decide_eq_true_iff, decide_eq_true_iff]

theorem spriteHeight_cases (s : State) :
    spriteHeight s = 16 ∧ tallSprites s = true ∨ spriteHeight s = 8 ∧ tallSprites s = false := by
  unfold spriteHeight
  cases tallSprites s <;> simp

end Sys2Proof.Machine
end

