-- ==== Sys2Proof/Laws/State.lean ====
section
/-! SUPPORT. What each update of the state leaves in each field: one lemma per field per update, so that no proof unfolds an
update. -/

namespace Sys2Proof.Machine

/-! ## Register file -/

@[simp] theorem Regs.get_lcdc (g : Regs) : g.get .lcdc = g.lcdc := rfl
@[simp] theorem Regs.get_stat (g : Regs) : g.get .stat = g.stat := rfl
@[simp] theorem Regs.get_ly (g : Regs) : g.get .ly = g.ly := rfl
@[simp] theorem Regs.get_lyc (g : Regs) : g.get .lyc = g.lyc := rfl
@[simp] theorem Regs.get_scx (g : Regs) : g.get .scx = g.scx := rfl
@[simp] theorem Regs.get_scy (g : Regs) : g.get .scy = g.scy := rfl
@[simp] theorem Regs.get_wx (g : Regs) : g.get .wx = g.wx := rfl
@[simp] theorem Regs.get_wy (g : Regs) : g.get .wy = g.wy := rfl
@[simp] theorem Regs.get_bgp (g : Regs) : g.get .bgp = g.bgp := rfl
@[simp] theorem Regs.get_obp0 (g : Regs) : g.get .obp0 = g.obp0 := rfl
@[simp] theorem Regs.get_obp1 (g : Regs) : g.get .obp1 = g.obp1 := rfl

@[simp] theorem Regs.set_lcdc (g : Regs) (v : Byte) : g.set .lcdc v = { g with lcdc := v } := rfl
@[simp] theorem Regs.set_stat (g : Regs) (v : Byte) : g.set .stat v = { g with stat := v } := rfl
@[simp] theorem Regs.set_ly (g : Regs) (v : Byte) : g.set .ly v = { g with ly := v } := rfl
@[simp] theorem Regs.set_lyc (g : Regs) (v : Byte) : g.set .lyc v = { g with lyc := v } := rfl
@[simp] theorem Regs.set_scx (g : Regs) (v : Byte) : g.set .scx v = { g with scx := v } := rfl
@[simp] theorem Regs.set_scy (g : Regs) (v : Byte) : g.set .scy v = { g with scy := v } := rfl
@[simp] theorem Regs.set_wx (g : Regs) (v : Byte) : g.set .wx v = { g with wx := v } := rfl
@[simp] theorem Regs.set_wy (g : Regs) (v : Byte) : g.set .wy v = { g with wy := v } := rfl
@[simp] theorem Regs.set_bgp (g : Regs) (v : Byte) : g.set .bgp v = { g with bgp := v } := rfl
@[simp] theorem Regs.set_obp0 (g : Regs) (v : Byte) : g.set .obp0 v = { g with obp0 := v } := rfl
@[simp] theorem Regs.set_obp1 (g : Regs) (v : Byte) : g.set .obp1 v = { g with obp1 := v } := rfl

theorem Regs.get_set_same (g : Regs) (r : Reg) (v : Byte) : (g.set r v).get r = v := by cases r <;> rfl

theorem Regs.get_set_other (g : Regs) {r q : Reg} (v : Byte) (h : q ≠ r) : (g.set r v).get q = g.get q := by
  cases r <;> cases q <;> first | rfl | exact absurd rfl h

@[simp] theorem State.reg_def (s : State) (r : Reg) : s.reg r = s.regs.get r := rfl

/-! ## Register write -/

@[simp] theorem State.setReg_regs (s : State) (r : Reg) (v : Byte) : (s.setReg r v).regs = s.regs.set r v := rfl
@[simp] theorem State.setReg_params (s : State) (r : Reg) (v : Byte) : (s.setReg r v).params = s.params := rfl
@[simp] theorem State.setReg_mode (s : State) (r : Reg) (v : Byte) : (s.setReg r v).mode = s.mode := rfl
@[simp] theorem State.setReg_acc (s : State) (r : Reg) (v : Byte) : (s.setReg r v).acc = s.acc := rfl
@[simp] theorem State.setReg_vram (s : State) (r : Reg) (v : Byte) : (s.setReg r v).vram = s.vram := rfl
@[simp] theorem State.setReg_oam (s : State) (r : Reg) (v : Byte) : (s.setReg r v).oam = s.oam := rfl
@[simp] theorem State.setReg_fb (s : State) (r : Reg) (v : Byte) : (s.setReg r v).fb = s.fb := rfl
@[simp] theorem State.setReg_requests (s : State) (r : Reg) (v : Byte) : (s.setReg r v).requests = s.requests := rfl
@[simp] theorem State.setReg_response (s : State) (r : Reg) (v : Byte) : (s.setReg r v).response = s.response := rfl
@[simp] theorem State.setReg_refusalMark (s : State) (r : Reg) (v : Byte) : (s.setReg r v).refusalMark = s.refusalMark := rfl
@[simp] theorem State.setReg_input (s : State) (r : Reg) (v : Byte) : (s.setReg r v).input = s.input := rfl
@[simp] theorem State.setReg_draws (s : State) (r : Reg) (v : Byte) : (s.setReg r v).draws = s.draws := rfl

/-! ## Request -/

@[simp] theorem State.raise_requests (s : State) (k : Interrupt) : (s.raise k).requests = s.requests ++ [k] := rfl
@[simp] theorem State.raise_params (s : State) (k : Interrupt) : (s.raise k).params = s.params := rfl
@[simp] theorem State.raise_regs (s : State) (k : Interrupt) : (s.raise k).regs = s.regs := rfl
@[simp] theorem State.raise_mode (s : State) (k : Interrupt) : (s.raise k).mode = s.mode := rfl
@[simp] theorem State.raise_acc (s : State) (k : Interrupt) : (s.raise k).acc = s.acc := rfl
@[simp] theorem State.raise_vram (s : State) (k : Interrupt) : (s.raise k).vram = s.vram := rfl
@[simp] theorem State.raise_oam (s : State) (k : Interrupt) : (s.raise k).oam = s.oam := rfl
@[simp] theorem State.raise_fb (s : State) (k : Interrupt) : (s.raise k).fb = s.fb := rfl
@[simp] theorem State.raise_response (s : State) (k : Interrupt) : (s.raise k).response = s.response := rfl
@[simp] theorem State.raise_refusalMark (s : State) (k : Interrupt) : (s.raise k).refusalMark = s.refusalMark := rfl
@[simp] theorem State.raise_input (s : State) (k : Interrupt) : (s.raise k).input = s.input := rfl
@[simp] theorem State.raise_draws (s : State) (k : Interrupt) : (s.raise k).draws = s.draws := rfl

/-- The requests an enable bit lets through. -/
def requestIf (b : Bool) (k : Interrupt) : List Interrupt := if b then [k] else []

@[simp] theorem requestIf_true (k : Interrupt) : requestIf true k = [k] := rfl
@[simp] theorem requestIf_false (k : Interrupt) : requestIf false k = [] := rfl

@[simp] theorem State.raiseIf_requests (s : State) (b : Bool) (k : Interrupt) :
    (s.raiseIf b k).requests = s.requests ++ requestIf b k := by cases b <;> simp [State.raiseIf]
@[simp] theorem State.raiseIf_params (s : State) (b : Bool) (k : Interrupt) : (s.raiseIf b k).params = s.params := by cases b <;> rfl
@[simp] theorem State.raiseIf_regs (s : State) (b : Bool) (k : Interrupt) : (s.raiseIf b k).regs = s.regs := by cases b <;> rfl
@[simp] theorem State.raiseIf_mode (s : State) (b : Bool) (k : Interrupt) : (s.raiseIf b k).mode = s.mode := by cases b <;> rfl
@[simp] theorem State.raiseIf_acc (s : State) (b : Bool) (k : Interrupt) : (s.raiseIf b k).acc = s.acc := by cases b <;> rfl
@[simp] theorem State.raiseIf_vram (s : State) (b : Bool) (k : Interrupt) : (s.raiseIf b k).vram = s.vram := by cases b <;> rfl
@[simp] theorem State.raiseIf_oam (s : State) (b : Bool) (k : Interrupt) : (s.raiseIf b k).oam = s.oam := by cases b <;> rfl
@[simp] theorem State.raiseIf_fb (s : State) (b : Bool) (k : Interrupt) : (s.raiseIf b k).fb = s.fb := by cases b <;> rfl
@[simp] theorem State.raiseIf_response (s : State) (b : Bool) (k : Interrupt) : (s.raiseIf b k).response = s.response := by cases b <;> rfl
@[simp] theorem State.raiseIf_refusalMark (s : State) (b : Bool) (k : Interrupt) : (s.raiseIf b k).refusalMark = s.refusalMark := by cases b <;> rfl
@[simp] theorem State.raiseIf_input (s : State) (b : Bool) (k : Interrupt) : (s.raiseIf b k).input = s.input := by cases b <;> rfl
@[simp] theorem State.raiseIf_draws (s : State) (b : Bool) (k : Interrupt) : (s.raiseIf b k).draws = s.draws := by cases b <;> rfl

/-! ## Response, refusal, emission -/

@[simp] theorem State.respond_response (s : State) (r : Response) : (s.respond r).response = r := rfl
@[simp] theorem State.respond_params (s : State) (r : Response) : (s.respond r).params = s.params := rfl
@[simp] theorem State.respond_regs (s : State) (r : Response) : (s.respond r).regs = s.regs := rfl
@[simp] theorem State.respond_mode (s : State) (r : Response) : (s.respond r).mode = s.mode := rfl
@[simp] theorem State.respond_acc (s : State) (r : Response) : (s.respond r).acc = s.acc := rfl
@[simp] theorem State.respond_vram (s : State) (r : Response) : (s.respond r).vram = s.vram := rfl
@[simp] theorem State.respond_oam (s : State) (r : Response) : (s.respond r).oam = s.oam := rfl
@[simp] theorem State.respond_fb (s : State) (r : Response) : (s.respond r).fb = s.fb := rfl
@[simp] theorem State.respond_requests (s : State) (r : Response) : (s.respond r).requests = s.requests := rfl
@[simp] theorem State.respond_refusalMark (s : State) (r : Response) : (s.respond r).refusalMark = s.refusalMark := rfl
@[simp] theorem State.respond_input (s : State) (r : Response) : (s.respond r).input = s.input := rfl
@[simp] theorem State.respond_draws (s : State) (r : Response) : (s.respond r).draws = s.draws := rfl

@[simp] theorem State.refuseWord_response (s : State) : s.refuseWord.response = .refused := rfl
@[simp] theorem State.refuseWord_refusalMark (s : State) : s.refuseWord.refusalMark = true := rfl
@[simp] theorem State.refuseWord_params (s : State) : s.refuseWord.params = s.params := rfl
@[simp] theorem State.refuseWord_regs (s : State) : s.refuseWord.regs = s.regs := rfl
@[simp] theorem State.refuseWord_mode (s : State) : s.refuseWord.mode = s.mode := rfl
@[simp] theorem State.refuseWord_acc (s : State) : s.refuseWord.acc = s.acc := rfl
@[simp] theorem State.refuseWord_vram (s : State) : s.refuseWord.vram = s.vram := rfl
@[simp] theorem State.refuseWord_oam (s : State) : s.refuseWord.oam = s.oam := rfl
@[simp] theorem State.refuseWord_fb (s : State) : s.refuseWord.fb = s.fb := rfl
@[simp] theorem State.refuseWord_requests (s : State) : s.refuseWord.requests = s.requests := rfl
@[simp] theorem State.refuseWord_input (s : State) : s.refuseWord.input = s.input := rfl
@[simp] theorem State.refuseWord_draws (s : State) : s.refuseWord.draws = s.draws := rfl

@[simp] theorem emitRequests_response (s : State) : (emitRequests s).response = .requests s.requests := rfl
@[simp] theorem emitRequests_requests (s : State) : (emitRequests s).requests = [] := rfl
@[simp] theorem emitRequests_params (s : State) : (emitRequests s).params = s.params := rfl
@[simp] theorem emitRequests_regs (s : State) : (emitRequests s).regs = s.regs := rfl
@[simp] theorem emitRequests_mode (s : State) : (emitRequests s).mode = s.mode := rfl
@[simp] theorem emitRequests_acc (s : State) : (emitRequests s).acc = s.acc := rfl
@[simp] theorem emitRequests_vram (s : State) : (emitRequests s).vram = s.vram := rfl
@[simp] theorem emitRequests_oam (s : State) : (emitRequests s).oam = s.oam := rfl
@[simp] theorem emitRequests_fb (s : State) : (emitRequests s).fb = s.fb := rfl
@[simp] theorem emitRequests_refusalMark (s : State) : (emitRequests s).refusalMark = s.refusalMark := rfl
@[simp] theorem emitRequests_input (s : State) : (emitRequests s).input = s.input := rfl
@[simp] theorem emitRequests_draws (s : State) : (emitRequests s).draws = s.draws := rfl

/-! ## Renders: only the framebuffer changes -/

@[simp] theorem renderBgWindow_fb (s : State) (l : Nat) : (renderBgWindow s l).fb = bgFramebuffer s l := rfl
@[simp] theorem renderSprites_fb (s : State) (l : Nat) : (renderSprites s l).fb = spriteFramebuffer s l := rfl
@[simp] theorem renderBgWindow_params (s : State) (l : Nat) : (renderBgWindow s l).params = s.params := rfl
@[simp] theorem renderSprites_params (s : State) (l : Nat) : (renderSprites s l).params = s.params := rfl
@[simp] theorem renderLine_params (s : State) : (renderLine s).params = s.params := rfl
@[simp] theorem renderBgWindow_regs (s : State) (l : Nat) : (renderBgWindow s l).regs = s.regs := rfl
@[simp] theorem renderSprites_regs (s : State) (l : Nat) : (renderSprites s l).regs = s.regs := rfl
@[simp] theorem renderLine_regs (s : State) : (renderLine s).regs = s.regs := rfl
@[simp] theorem renderBgWindow_mode (s : State) (l : Nat) : (renderBgWindow s l).mode = s.mode := rfl
@[simp] theorem renderSprites_mode (s : State) (l : Nat) : (renderSprites s l).mode = s.mode := rfl
@[simp] theorem renderLine_mode (s : State) : (renderLine s).mode = s.mode := rfl
@[simp] theorem renderBgWindow_acc (s : State) (l : Nat) : (renderBgWindow s l).acc = s.acc := rfl
@[simp] theorem renderSprites_acc (s : State) (l : Nat) : (renderSprites s l).acc = s.acc := rfl
@[simp] theorem renderLine_acc (s : State) : (renderLine s).acc = s.acc := rfl
@[simp] theorem renderBgWindow_vram (s : State) (l : Nat) : (renderBgWindow s l).vram = s.vram := rfl
@[simp] theorem renderSprites_vram (s : State) (l : Nat) : (renderSprites s l).vram = s.vram := rfl
@[simp] theorem renderLine_vram (s : State) : (renderLine s).vram = s.vram := rfl
@[simp] theorem renderBgWindow_oam (s : State) (l : Nat) : (renderBgWindow s l).oam = s.oam := rfl
@[simp] theorem renderSprites_oam (s : State) (l : Nat) : (renderSprites s l).oam = s.oam := rfl
@[simp] theorem renderLine_oam (s : State) : (renderLine s).oam = s.oam := rfl
@[simp] theorem renderBgWindow_requests (s : State) (l : Nat) : (renderBgWindow s l).requests = s.requests := rfl
@[simp] theorem renderSprites_requests (s : State) (l : Nat) : (renderSprites s l).requests = s.requests := rfl
@[simp] theorem renderLine_requests (s : State) : (renderLine s).requests = s.requests := rfl
@[simp] theorem renderBgWindow_response (s : State) (l : Nat) : (renderBgWindow s l).response = s.response := rfl
@[simp] theorem renderSprites_response (s : State) (l : Nat) : (renderSprites s l).response = s.response := rfl
@[simp] theorem renderLine_response (s : State) : (renderLine s).response = s.response := rfl
@[simp] theorem renderBgWindow_refusalMark (s : State) (l : Nat) : (renderBgWindow s l).refusalMark = s.refusalMark := rfl
@[simp] theorem renderSprites_refusalMark (s : State) (l : Nat) : (renderSprites s l).refusalMark = s.refusalMark := rfl
@[simp] theorem renderLine_refusalMark (s : State) : (renderLine s).refusalMark = s.refusalMark := rfl
@[simp] theorem renderBgWindow_input (s : State) (l : Nat) : (renderBgWindow s l).input = s.input := rfl
@[simp] theorem renderSprites_input (s : State) (l : Nat) : (renderSprites s l).input = s.input := rfl
@[simp] theorem renderLine_input (s : State) : (renderLine s).input = s.input := rfl
@[simp] theorem renderBgWindow_draws (s : State) (l : Nat) : (renderBgWindow s l).draws = s.draws := rfl
@[simp] theorem renderSprites_draws (s : State) (l : Nat) : (renderSprites s l).draws = s.draws := rfl
@[simp] theorem renderLine_draws (s : State) : (renderLine s).draws = s.draws := rfl

/-! ## STAT[1:0] write -/

@[simp] theorem writeStatMode_regs (s : State) :
    (writeStatMode s).regs = s.regs.set .stat (withStatMode s.regs.stat (modeCode s.mode)) := rfl
@[simp] theorem writeStatMode_params (s : State) : (writeStatMode s).params = s.params := rfl
@[simp] theorem writeStatMode_mode (s : State) : (writeStatMode s).mode = s.mode := rfl
@[simp] theorem writeStatMode_acc (s : State) : (writeStatMode s).acc = s.acc := rfl
@[simp] theorem writeStatMode_vram (s : State) : (writeStatMode s).vram = s.vram := rfl
@[simp] theorem writeStatMode_oam (s : State) : (writeStatMode s).oam = s.oam := rfl
@[simp] theorem writeStatMode_fb (s : State) : (writeStatMode s).fb = s.fb := rfl
@[simp] theorem writeStatMode_requests (s : State) : (writeStatMode s).requests = s.requests := rfl
@[simp] theorem writeStatMode_response (s : State) : (writeStatMode s).response = s.response := rfl
@[simp] theorem writeStatMode_refusalMark (s : State) : (writeStatMode s).refusalMark = s.refusalMark := rfl
@[simp] theorem writeStatMode_input (s : State) : (writeStatMode s).input = s.input := rfl
@[simp] theorem writeStatMode_draws (s : State) : (writeStatMode s).draws = s.draws := rfl

/-! ## Comparator -/

theorem coincidence_eq (s : State) :
    coincidence s =
      (s.setReg .stat (withCoincidence s.regs.stat (s.regs.ly == s.regs.lyc))).raiseIf
        (s.regs.ly == s.regs.lyc && ieLyc s) .lcdStat := by
  by_cases h : s.regs.ly = s.regs.lyc
  · simp [coincidence, h]
  · have hb : (s.regs.ly == s.regs.lyc) = false := by simpa using h
    simp only [coincidence, if_neg h, hb, Bool.false_and]
    rfl

@[simp] theorem coincidence_regs (s : State) :
    (coincidence s).regs = s.regs.set .stat (withCoincidence s.regs.stat (s.regs.ly == s.regs.lyc)) := by
  simp [coincidence_eq]
@[simp] theorem coincidence_requests (s : State) :
    (coincidence s).requests = s.requests ++ requestIf (s.regs.ly == s.regs.lyc && ieLyc s) .lcdStat := by
  simp [coincidence_eq]
@[simp] theorem coincidence_params (s : State) : (coincidence s).params = s.params := by simp [coincidence_eq]
@[simp] theorem coincidence_mode (s : State) : (coincidence s).mode = s.mode := by simp [coincidence_eq]
@[simp] theorem coincidence_acc (s : State) : (coincidence s).acc = s.acc := by simp [coincidence_eq]
@[simp] theorem coincidence_vram (s : State) : (coincidence s).vram = s.vram := by simp [coincidence_eq]
@[simp] theorem coincidence_oam (s : State) : (coincidence s).oam = s.oam := by simp [coincidence_eq]
@[simp] theorem coincidence_fb (s : State) : (coincidence s).fb = s.fb := by simp [coincidence_eq]
@[simp] theorem coincidence_response (s : State) : (coincidence s).response = s.response := by simp [coincidence_eq]
@[simp] theorem coincidence_refusalMark (s : State) : (coincidence s).refusalMark = s.refusalMark := by simp [coincidence_eq]
@[simp] theorem coincidence_input (s : State) : (coincidence s).input = s.input := by simp [coincidence_eq]
@[simp] theorem coincidence_draws (s : State) : (coincidence s).draws = s.draws := by simp [coincidence_eq]

end Sys2Proof.Machine
end

