-- ==== Sys2Proof/Laws/Sequencer.lean ====
section
/-! SUPPORT. What a transition and a run of the sequencer can do, said once. -/

namespace Sys2Proof.Machine

/-! ## One transition -/

/-- Every budget is at least 80 (R29, R235). -/
theorem budget_ge (m : Mode) : 80 ≤ budget m := by cases m <;> decide

theorem budget_le (m : Mode) : budget m ≤ 456 := by cases m <;> decide

/-- The four shapes of a transition (R102). -/
theorem transition_cases (s : State) :
    (s.mode = .oamScan ∧ transition s = { s with mode := .vramTransfer }) ∨
    (s.mode = .vramTransfer ∧
      transition s = { renderLine s with mode := .hblank }.raiseIf (ieHblank s) .lcdStat) ∨
    (s.mode = .hblank ∧ s.regs.ly + 1#8 = 144#8 ∧
      transition s = ({ s.setReg .ly 144#8 with mode := .vblank }.raise .vblank).raiseIf (ieVblank s) .lcdStat) ∨
    (s.mode = .hblank ∧ s.regs.ly + 1#8 ≠ 144#8 ∧
      transition s = { s.setReg .ly (s.regs.ly + 1#8) with mode := .oamScan }.raiseIf (ieOam s) .lcdStat) ∨
    (s.mode = .vblank ∧ 153 < (s.regs.ly + 1#8).toNat ∧
      transition s = { s.setReg .ly 0#8 with mode := .oamScan }.raiseIf (ieOam s) .lcdStat) ∨
    (s.mode = .vblank ∧ (s.regs.ly + 1#8).toNat ≤ 153 ∧ transition s = s.setReg .ly (s.regs.ly + 1#8)) := by
  cases hm : s.mode with
  | oamScan => exact .inl ⟨rfl, by simp [transition, hm]⟩
  | vramTransfer => exact .inr (.inl ⟨rfl, by simp [transition, hm]⟩)
  | hblank =>
    by_cases h : s.regs.ly + 1#8 = 144#8
    · refine .inr (.inr (.inl ⟨rfl, h, ?_⟩))
      simp only [transition, hm, if_pos h]
      rw [h]
    · exact .inr (.inr (.inr (.inl ⟨rfl, h, by simp only [transition, hm, if_neg h]⟩)))
  | vblank =>
    by_cases h : 153 < (s.regs.ly + 1#8).toNat
    · exact .inr (.inr (.inr (.inr (.inl ⟨rfl, h, by simp only [transition, hm, if_pos h]⟩))))
    · exact .inr (.inr (.inr (.inr (.inr ⟨rfl, Nat.le_of_not_lt h, by simp only [transition, hm, if_neg h]⟩))))

@[simp] theorem transition_params (s : State) : (transition s).params = s.params := by
  obtain ⟨-, h⟩ | ⟨-, h⟩ | ⟨-, -, h⟩ | ⟨-, -, h⟩ | ⟨-, -, h⟩ | ⟨-, -, h⟩ := transition_cases s <;> rw [h] <;> simp
@[simp] theorem transition_vram (s : State) : (transition s).vram = s.vram := by
  obtain ⟨-, h⟩ | ⟨-, h⟩ | ⟨-, -, h⟩ | ⟨-, -, h⟩ | ⟨-, -, h⟩ | ⟨-, -, h⟩ := transition_cases s <;> rw [h] <;> simp
@[simp] theorem transition_oam (s : State) : (transition s).oam = s.oam := by
  obtain ⟨-, h⟩ | ⟨-, h⟩ | ⟨-, -, h⟩ | ⟨-, -, h⟩ | ⟨-, -, h⟩ | ⟨-, -, h⟩ := transition_cases s <;> rw [h] <;> simp
@[simp] theorem transition_response (s : State) : (transition s).response = s.response := by
  obtain ⟨-, h⟩ | ⟨-, h⟩ | ⟨-, -, h⟩ | ⟨-, -, h⟩ | ⟨-, -, h⟩ | ⟨-, -, h⟩ := transition_cases s <;> rw [h] <;> simp
@[simp] theorem transition_refusalMark (s : State) : (transition s).refusalMark = s.refusalMark := by
  obtain ⟨-, h⟩ | ⟨-, h⟩ | ⟨-, -, h⟩ | ⟨-, -, h⟩ | ⟨-, -, h⟩ | ⟨-, -, h⟩ := transition_cases s <;> rw [h] <;> simp
@[simp] theorem transition_input (s : State) : (transition s).input = s.input := by
  obtain ⟨-, h⟩ | ⟨-, h⟩ | ⟨-, -, h⟩ | ⟨-, -, h⟩ | ⟨-, -, h⟩ | ⟨-, -, h⟩ := transition_cases s <;> rw [h] <;> simp
@[simp] theorem transition_draws (s : State) : (transition s).draws = s.draws := by
  obtain ⟨-, h⟩ | ⟨-, h⟩ | ⟨-, -, h⟩ | ⟨-, -, h⟩ | ⟨-, -, h⟩ | ⟨-, -, h⟩ := transition_cases s <;> rw [h] <;> simp
@[simp] theorem transition_acc (s : State) : (transition s).acc = s.acc := by
  obtain ⟨-, h⟩ | ⟨-, h⟩ | ⟨-, -, h⟩ | ⟨-, -, h⟩ | ⟨-, -, h⟩ | ⟨-, -, h⟩ := transition_cases s <;> rw [h] <;> simp

/-- A transition writes no register but LY. -/
theorem transition_regs (s : State) : (transition s).regs = { s.regs with ly := (transition s).regs.ly } := by
  obtain ⟨-, h⟩ | ⟨-, h⟩ | ⟨-, -, h⟩ | ⟨-, -, h⟩ | ⟨-, -, h⟩ | ⟨-, -, h⟩ := transition_cases s <;> rw [h] <;> simp

/-- A transition only appends requests. -/
theorem transition_requests (s : State) : ∃ l, (transition s).requests = s.requests ++ l := by
  obtain ⟨-, h⟩ | ⟨-, h⟩ | ⟨-, -, h⟩ | ⟨-, -, h⟩ | ⟨-, -, h⟩ | ⟨-, -, h⟩ := transition_cases s <;> rw [h] <;> simp

/-- Only the end of VRAMTransfer touches the framebuffer (R105). -/
theorem transition_fb (s : State) :
    (transition s).fb = if s.mode = .vramTransfer then (renderLine s).fb else s.fb := by
  obtain ⟨m, h⟩ | ⟨m, h⟩ | ⟨m, -, h⟩ | ⟨m, -, h⟩ | ⟨m, -, h⟩ | ⟨m, -, h⟩ := transition_cases s <;> rw [h] <;> simp [m]

theorem raiseIf_with_acc (s : State) (b : Bool) (k : Interrupt) (c : Nat) :
    ({ s with acc := c } : State).raiseIf b k = { s.raiseIf b k with acc := c } := by cases b <;> rfl

/-- A transition neither reads nor writes the accumulator. -/
theorem transition_with_acc (s : State) (c : Nat) : transition { s with acc := c } = { transition s with acc := c } := by
  cases hm : s.mode with
  | oamScan => simp only [transition, hm]
  | vramTransfer =>
    simp only [transition, hm]
    exact raiseIf_with_acc { renderLine s with mode := .hblank } (ieHblank s) .lcdStat c
  | hblank =>
    simp only [transition, hm]
    split_ifs
    · exact raiseIf_with_acc ({ s.setReg .ly (s.regs.ly + 1#8) with mode := .vblank }.raise .vblank) (ieVblank s) .lcdStat c
    · exact raiseIf_with_acc { s.setReg .ly (s.regs.ly + 1#8) with mode := .oamScan } (ieOam s) .lcdStat c
  | vblank =>
    simp only [transition, hm]
    split_ifs
    · exact raiseIf_with_acc { s.setReg .ly 0#8 with mode := .oamScan } (ieOam s) .lcdStat c
    · simp only [State.setReg, hm]

/-! ## The loop -/

@[simp] theorem runSequencer_zero (s : State) : runSequencer 0 s = s := rfl

theorem runSequencer_succ (n : Nat) (s : State) :
    runSequencer (n + 1) s =
      if budget s.mode ≤ s.acc then runSequencer n (transition { s with acc := s.acc - budget s.mode }) else s := rfl

/-- With the accumulator below the budget the loop ends. -/
theorem runSequencer_of_lt (n : Nat) {s : State} (h : s.acc < budget s.mode) : runSequencer n s = s := by
  cases n with
  | zero => rfl
  | succ n => rw [runSequencer_succ, if_neg (by omega)]

/-- What every paid transition keeps, the loop keeps. -/
theorem runSequencer_keeps {P : State → Prop}
    (hP : ∀ s, budget s.mode ≤ s.acc → P s → P (transition { s with acc := s.acc - budget s.mode }))
    (n : Nat) {s : State} (h : P s) : P (runSequencer n s) := by
  induction n generalizing s with
  | zero => exact h
  | succ n ih =>
    rw [runSequencer_succ]
    split_ifs with hb
    · exact ih (hP s hb h)
    · exact h

/-- With enough fuel the loop ends with the accumulator below the budget of the mode (R101). -/
theorem runSequencer_acc_lt {n : Nat} {s : State} (h : s.acc / 80 ≤ n) :
    (runSequencer n s).acc < budget (runSequencer n s).mode := by
  induction n generalizing s with
  | zero => have := budget_ge s.mode; simp only [runSequencer_zero]; omega
  | succ n ih =>
    rw [runSequencer_succ]
    split_ifs with hb
    · apply ih
      have := budget_ge s.mode
      simp only [transition_acc]
      omega
    · omega

/-- More fuel than needed changes nothing. -/
theorem runSequencer_fuel {n m : Nat} {s : State} (hn : s.acc / 80 ≤ n) (hm : s.acc / 80 ≤ m) :
    runSequencer n s = runSequencer m s := by
  induction n generalizing s m with
  | zero => have := budget_ge s.mode; rw [runSequencer_of_lt 0 (by omega), runSequencer_of_lt m (by omega)]
  | succ n ih =>
    by_cases hb : budget s.mode ≤ s.acc
    · have := budget_ge s.mode
      obtain ⟨m, rfl⟩ : ∃ m', m = m' + 1 := ⟨m - 1, by omega⟩
      rw [runSequencer_succ, runSequencer_succ, if_pos hb, if_pos hb]
      exact ih (by simp only [transition_acc]; omega) (by simp only [transition_acc]; omega)
    · rw [runSequencer_of_lt _ (by omega), runSequencer_of_lt _ (by omega)]

@[simp] theorem runSequencer_params (n : Nat) (s : State) : (runSequencer n s).params = s.params :=
  runSequencer_keeps (P := fun t => t.params = s.params) (fun t _ h => by simpa using h) n rfl
@[simp] theorem runSequencer_vram (n : Nat) (s : State) : (runSequencer n s).vram = s.vram :=
  runSequencer_keeps (P := fun t => t.vram = s.vram) (fun t _ h => by simpa using h) n rfl
@[simp] theorem runSequencer_oam (n : Nat) (s : State) : (runSequencer n s).oam = s.oam :=
  runSequencer_keeps (P := fun t => t.oam = s.oam) (fun t _ h => by simpa using h) n rfl
@[simp] theorem runSequencer_response (n : Nat) (s : State) : (runSequencer n s).response = s.response :=
  runSequencer_keeps (P := fun t => t.response = s.response) (fun t _ h => by simpa using h) n rfl
@[simp] theorem runSequencer_refusalMark (n : Nat) (s : State) : (runSequencer n s).refusalMark = s.refusalMark :=
  runSequencer_keeps (P := fun t => t.refusalMark = s.refusalMark) (fun t _ h => by simpa using h) n rfl
@[simp] theorem runSequencer_input (n : Nat) (s : State) : (runSequencer n s).input = s.input :=
  runSequencer_keeps (P := fun t => t.input = s.input) (fun t _ h => by simpa using h) n rfl
@[simp] theorem runSequencer_draws (n : Nat) (s : State) : (runSequencer n s).draws = s.draws :=
  runSequencer_keeps (P := fun t => t.draws = s.draws) (fun t _ h => by simpa using h) n rfl

/-- The loop writes no register but LY. -/
theorem runSequencer_regs (n : Nat) (s : State) :
    (runSequencer n s).regs = { s.regs with ly := (runSequencer n s).regs.ly } := by
  refine runSequencer_keeps (P := fun t => t.regs = { s.regs with ly := t.regs.ly }) (fun t _ h => ?_) n rfl
  have ht := transition_regs { t with acc := t.acc - budget t.mode }
  simp only at ht
  rw [ht, h]

/-- The loop only appends requests. -/
theorem runSequencer_requests (n : Nat) (s : State) : ∃ l, (runSequencer n s).requests = s.requests ++ l := by
  refine runSequencer_keeps (P := fun t => ∃ l, t.requests = s.requests ++ l) (fun t _ h => ?_) n ⟨[], by simp⟩
  obtain ⟨l, hl⟩ := h
  obtain ⟨l', hl'⟩ := transition_requests { t with acc := t.acc - budget t.mode }
  exact ⟨l ++ l', by rw [hl']; simp [hl]⟩

/-! ## The paths of a TICK -/

/-- `advance` without its evaluation order. -/
theorem advance_eq (s : State) (n : Nat) :
    advance s n = runSequencer (sequencerFuel (s.acc + n)) { s with acc := s.acc + n } := by
  simp [advance]

/-- R101: after the loop the accumulator is below the budget of the mode. -/
theorem advance_acc_lt (s : State) (n : Nat) : (advance s n).acc < budget (advance s n).mode := by
  rw [advance_eq]
  exact runSequencer_acc_lt (by simp [sequencerFuel])

/-- Cycles that do not pay for the mode are only counted. -/
theorem advance_of_lt {s : State} {n : Nat} (h : s.acc + n < budget s.mode) :
    advance s n = { s with acc := s.acc + n } := by
  rw [advance_eq, runSequencer_of_lt]
  exact h

/-- Cycles that pay for exactly one transition take it. -/
theorem advance_one {s : State} {n : Nat} (h : budget s.mode ≤ s.acc + n)
    (h' : s.acc + n - budget s.mode < budget (transition s).mode) :
    advance s n = transition { s with acc := s.acc + n - budget s.mode } := by
  have hb := budget_ge s.mode
  obtain ⟨k, hk⟩ : ∃ k, sequencerFuel (s.acc + n) = k + 1 := ⟨sequencerFuel (s.acc + n) - 1, by unfold sequencerFuel; omega⟩
  rw [advance_eq, hk, runSequencer_succ, if_pos h]
  exact runSequencer_of_lt _ (by simpa [transition_with_acc] using h')

/-- Cycles that pay for the mode take one transition, and the loop goes on from it. -/
theorem advance_pays {s : State} {n : Nat} (h : budget s.mode ≤ s.acc + n) :
    advance s n = advance (transition { s with acc := s.acc + n - budget s.mode }) 0 := by
  have hb := budget_ge s.mode
  obtain ⟨k, hk⟩ : ∃ k, sequencerFuel (s.acc + n) = k + 1 := ⟨sequencerFuel (s.acc + n) - 1, by unfold sequencerFuel; omega⟩
  unfold sequencerFuel at hk
  rw [advance_eq, advance_eq, sequencerFuel, hk, runSequencer_succ, if_pos h]
  apply runSequencer_fuel
  · rw [transition_acc]; dsimp only; omega
  · exact le_refl _

/-- Induction along the loop: a property of a state that pays for no transition, and of one that pays given the state after
that transition, holds of every state. -/
theorem loop_induction {P : State → Prop} (stop : ∀ s, s.acc < budget s.mode → P s)
    (pay : ∀ s, budget s.mode ≤ s.acc → P (transition { s with acc := s.acc - budget s.mode }) → P s) : ∀ s, P s := by
  intro s
  induction hn : s.acc using Nat.strong_induction_on generalizing s with
  | _ n ih =>
    subst hn
    by_cases h : s.acc < budget s.mode
    · exact stop s h
    · refine pay s (by omega) (ih _ ?_ _ rfl)
      have := budget_ge s.mode
      rw [transition_acc]; dsimp only; omega

/-- The accumulator loses no cycle at a boundary: cycles given in two parts do what their sum does (R101). -/
theorem advance_advance (s : State) (a b : Nat) : advance (advance s a) b = advance s (a + b) := by
  suffices H : ∀ s : State, advance (advance s 0) b = advance s b by
    have h := H { s with acc := s.acc + a }
    rwa [show advance { s with acc := s.acc + a } 0 = advance s a by rw [advance_eq, advance_eq]; rfl,
      show advance { s with acc := s.acc + a } b = advance s (a + b) by
        rw [advance_eq, advance_eq]; dsimp only; rw [Nat.add_assoc]] at h
  refine loop_induction (fun s h => ?_) fun s h ih => ?_
  · rw [advance_of_lt (s := s) (n := 0) h]; rfl
  · rw [advance_pays (s := s) (n := 0) h]
    refine ih.trans ?_
    rw [advance_pays (s := s) (n := b) (by omega), advance_eq, advance_eq, transition_acc, transition_acc]
    simp only [transition_with_acc]
    rw [show s.acc - budget s.mode + b = s.acc + b - budget s.mode by omega]
    rfl

@[simp] theorem advance_params (s : State) (n : Nat) : (advance s n).params = s.params := by simp [advance_eq]
@[simp] theorem advance_vram (s : State) (n : Nat) : (advance s n).vram = s.vram := by simp [advance_eq]
@[simp] theorem advance_oam (s : State) (n : Nat) : (advance s n).oam = s.oam := by simp [advance_eq]
@[simp] theorem advance_response (s : State) (n : Nat) : (advance s n).response = s.response := by simp [advance_eq]
@[simp] theorem advance_refusalMark (s : State) (n : Nat) : (advance s n).refusalMark = s.refusalMark := by simp [advance_eq]
@[simp] theorem advance_input (s : State) (n : Nat) : (advance s n).input = s.input := by simp [advance_eq]
@[simp] theorem advance_draws (s : State) (n : Nat) : (advance s n).draws = s.draws := by simp [advance_eq]

theorem advance_regs (s : State) (n : Nat) : (advance s n).regs = { s.regs with ly := (advance s n).regs.ly } := by
  simp only [advance_eq]
  exact runSequencer_regs _ { s with acc := s.acc + n }

theorem advance_requests (s : State) (n : Nat) : ∃ l, (advance s n).requests = s.requests ++ l := by
  rw [advance_eq]
  exact runSequencer_requests _ { s with acc := s.acc + n }

end Sys2Proof.Machine
end

