-- ==== Sys2Proof/Laws/Step.lean ====
section
/-! SUPPORT. The three things a step can do, said once, and that every transaction answers a next state. -/

namespace Sys2Proof.Machine

/-- Every transaction answers a next state (R220). -/
theorem exec_next (i : Instr) (s : State) : ∃ t, exec i s = .next t := by cases i <;> exact ⟨_, rfl⟩

/-- A step finds no word, or a word that decodes, whose effect it is, or a word that does not, which it refuses. -/
theorem step_cases {s t : State} (h : step s = .next t) :
    (s.input = [] ∧ t = s) ∨
    (∃ w rest i, s.input = w :: rest ∧ decode w = .ok i ∧ exec i { s with input := rest } = .next t) ∨
    (∃ w rest r, s.input = w :: rest ∧ decode w = .error r ∧ t = State.refuseWord { s with input := rest }) := by
  unfold step at h
  split at h
  · exact .inl ⟨‹_›, by simpa using h.symm⟩
  · rename_i w rest hi
    split at h
    · exact .inr (.inl ⟨w, rest, _, hi, ‹_›, h⟩)
    · exact .inr (.inr ⟨w, rest, _, hi, ‹_›, by simpa using h.symm⟩)

end Sys2Proof.Machine
end

