-- ==== Sys2Proof/Laws/Tick.lean ====
section
/-! SUPPORT. TICK taken apart once: its two paths, and the fields each leaves. -/

namespace Sys2Proof.Machine

theorem tick_enabled {s : State} (h : displayOn s = true) (n : Nat) :
    tick s n = emitRequests (enabledTick { s with requests := [] } n) := by
  rw [tick, if_pos h]

theorem tick_disabled {s : State} (h : displayOn s = false) (n : Nat) :
    tick s n = emitRequests (disabledTick { s with requests := [] }) := by
  rw [tick, if_neg (by simp [h])]

/-- A TICK whose cycles do not pay for the mode takes no transition. -/
theorem tick_no_transition {s : State} (h : displayOn s = true) {n : Nat} (hn : s.acc + n < budget s.mode) :
    tick s n = emitRequests (coincidence (writeStatMode { s with acc := s.acc + n, requests := [] })) := by
  rw [tick_enabled h, enabledTick, advance_of_lt (s := { s with requests := [] }) hn]

/-- An enabled TICK, from the state `a` its loop ends in: STAT takes the mode's code and the comparator's bit, and the
response is the loop's requests, then the comparator's. -/
theorem tick_enabled_eq {s : State} (h : displayOn s = true) (n : Nat) (a : State)
    (ha : a = advance { s with requests := [] } n) :
    tick s n = { a with
      regs := { a.regs with
        stat := withCoincidence (withStatMode a.regs.stat (modeCode a.mode)) (a.regs.ly == a.regs.lyc) }
      requests := []
      response := .requests (a.requests ++ requestIf (a.regs.ly == a.regs.lyc && ieLyc a) .lcdStat) } := by
  subst ha
  rw [tick_enabled h, enabledTick]
  generalize advance { s with requests := [] } n = a
  have hi : ieLyc (writeStatMode a) = ieLyc a := by simp [ieLyc, writeStatMode]
  simp [emitRequests, coincidence_eq, hi]

/-- The register file after an enabled TICK: LY and STAT are written, nothing else. -/
theorem tick_enabled_regs {s : State} (h : displayOn s = true) (n : Nat) :
    (tick s n).regs =
      { s.regs with
        ly := (advance { s with requests := [] } n).regs.ly
        stat := withCoincidence (withStatMode s.regs.stat (modeCode (advance { s with requests := [] } n).mode))
          ((advance { s with requests := [] } n).regs.ly == s.regs.lyc) } := by
  rw [tick_enabled h, enabledTick, emitRequests_regs, coincidence_regs, writeStatMode_regs]
  rw [advance_regs]
  rfl

/-- The request list of an enabled TICK: the transitions' requests, then the comparator's. -/
theorem tick_enabled_response {s : State} (h : displayOn s = true) (n : Nat) :
    (tick s n).response =
      .requests ((advance { s with requests := [] } n).requests ++
        requestIf ((tick s n).regs.ly == (tick s n).regs.lyc && ieLyc s) .lcdStat) := by
  have hly : ieLyc (writeStatMode (advance { s with requests := [] } n)) = ieLyc s := by
    simp only [ieLyc, writeStatMode_regs, Regs.set_stat]
    rw [bit_withStatMode _ _ (by decide), advance_regs]
  simp only [tick_enabled_regs h]
  rw [tick_enabled h, enabledTick, emitRequests_response, coincidence_requests, hly]
  simp only [writeStatMode_regs, writeStatMode_requests, Regs.set_stat]
  rw [advance_regs]

/-- The disable path (R108), field by field. -/
theorem disabledTick_eq (s : State) :
    disabledTick s =
      if s.params.coincidenceWhenDisabled then
        coincidence { (s.setReg .ly 0#8).setReg .stat (withStatMode s.regs.stat 0#2) with acc := 0, mode := .oamScan }
      else { (s.setReg .ly 0#8).setReg .stat (withStatMode s.regs.stat 0#2) with acc := 0, mode := .oamScan } := rfl

end Sys2Proof.Machine
end

