-- ==== Sys2Proof/Tests/Slice0.lean ====
section
/-! SUPPORT. Own tests and witnesses. Expected values come from the spec: the words from R81 to R88, the results from the
vectors of 95_test_vectors.md (their names in the comments), written in that file's terms. -/

namespace Sys2Proof.Tests

open Sys2Proof.Machine

/-! ## Small states -/

/-- The standard start state of the vectors (95, section 0), with the registers LCDC, STAT and LYC set. -/
def start (lcdc stat lyc : Byte) : State :=
  { State.reset with regs := { State.reset.regs with lcdc := lcdc, stat := stat, lyc := lyc } }

/-- A sequencer position in a state. -/
def State.at (s : State) (mode : Mode) (acc : Nat) (ly : Byte) : State :=
  { s with mode := mode, acc := acc, regs := { s.regs with ly := ly } }

/-- The state after one step on one word. -/
def after (s : State) (w : Word) : State :=
  match step { s with input := [w] } with
  | .next t => t
  | .fault f => nomatch f
  | .refused _ => s

/-- The visible position `mode / acc / LY / STAT` of 95, with the response. -/
def view (s : State) : Mode × Nat × Byte × Byte × Response := (s.mode, s.acc, s.regs.ly, s.regs.stat, s.response)

/-- A tile's plane bytes, the same in each row. -/
def tile (n : Nat) (p0 p1 : Byte) (m : Memory) : Memory :=
  (List.range 8).foldl (fun m r => (m.write (0x8000 + 16 * n + 2 * r) p0).write (0x8000 + 16 * n + 2 * r + 1) p1) m

/-- An OAM entry. -/
def entry (i : Nat) (y x t f : Byte) (m : Memory) : Memory :=
  (((m.write (4 * i) y).write (4 * i + 1) x).write (4 * i + 2) t).write (4 * i + 3) f

/-- The shades of the first `n` columns of a line, after the sprites are drawn. -/
def shades (s : State) (line n : Nat) : List (Option Nat) :=
  (List.range n).map fun px => fbGet s.params (renderSprites s line).fb px line

def s0 : Option Nat := some 0xFFFFFF
def s1 : Option Nat := some 0xAAAAAA
def s2 : Option Nat := some 0x555555
def s3 : Option Nat := some 0x000000

/-- A white line, as the background renderer leaves it over a blank tile 0. -/
def whiteLine (s : State) (line : Nat) : State :=
  { s with fb := forEach (fun fb px => fbSet s.params fb px line 0xFFFFFF) (List.range 24) s.fb }

/-- The setup of 95, section 5. -/
def spriteStart (oam : Memory) : State :=
  { State.reset with
    regs := { State.reset.regs with lcdc := 0x91#8, bgp := 0xE4#8, obp0 := 0xE4#8, obp1 := 0x1B#8 }
    vram := ((((tile 4 0x00 0xFF (tile 3 0xFF 0x00 (tile 1 0xFF 0xFF []))).write 0x8020 0xF0).write 0x8021 0xCC).write 0x802E 0xFF)
    oam := oam }

/-! ## WellFormed refuses ill-formed terms -/

theorem test_wf_refuses_oam_offset_160 : Instr.wf (.oamWrite 160#8 0#8) = false := by decide
theorem test_wf_accepts_oam_offset_159 : Instr.wf (.oamWrite 159#8 0#8) = true := by decide
theorem test_wf_refuses_equal_shades : ShadeTable.wf ⟨7, 6, 5, 7⟩ = false := by decide
theorem test_wf_refuses_scale_0 : Params.wf { Params.reset with scale := 0 } = false := by decide
theorem test_wf_refuses_scale_103 : Params.wf { Params.reset with scale := 103 } = false := by decide
theorem test_wf_accepts_reset_params : Params.wf Params.reset = true := by decide

/-! ## Decoding: words written out from the formats (R82 to R88) -/

theorem test_decode_tick : decode 0b00010000000000000000000111001000#32 = .ok (.tick 456#16) := rfl
theorem test_decode_regWrite : decode 0b00100000000000000100101101010111#32 = .ok (.regWriteWx 0x57#8) := rfl
theorem test_decode_regRead : decode 0b00110000000000000100000100000000#32 = .ok .regReadStat := rfl
theorem test_decode_fbRead : decode 0b01000000000001010000000000001010#32 = .ok (.fbRead 10#14 20#14) := rfl
theorem test_decode_vramWrite : decode 0b01010000000111111111111100010010#32 = .ok (.vramWrite 0x1FFF#13 0x12#8) := rfl
theorem test_decode_oamWrite : decode 0b01100000000000001001111100000111#32 = .ok (.oamWrite 159#8 0x07#8) := rfl

theorem test_decode_every_register_write :
    [0x20004091#32, 0x20004141#32, 0x20004210#32, 0x200043FA#32, 0x20004496#32, 0x20004505#32, 0x200047E4#32, 0x200048E4#32,
      0x2000491B#32, 0x20004A01#32, 0x20004B57#32].map decode =
    [.ok (.regWriteLcdc 0x91#8), .ok (.regWriteStat 0x41#8), .ok (.regWriteScy 0x10#8), .ok (.regWriteScx 0xFA#8),
      .ok (.regWriteLy 150#8), .ok (.regWriteLyc 5#8), .ok (.regWriteBgp 0xE4#8), .ok (.regWriteObp0 0xE4#8),
      .ok (.regWriteObp1 0x1B#8), .ok (.regWriteWy 1#8), .ok (.regWriteWx 0x57#8)] := rfl

theorem test_decode_every_register_read :
    [0x30004000#32, 0x30004100#32, 0x30004200#32, 0x30004300#32, 0x30004400#32, 0x30004500#32, 0x30004700#32, 0x30004800#32,
      0x30004900#32, 0x30004A00#32, 0x30004B00#32].map decode =
    [.ok .regReadLcdc, .ok .regReadStat, .ok .regReadScy, .ok .regReadScx, .ok .regReadLy, .ok .regReadLyc, .ok .regReadBgp,
      .ok .regReadObp0, .ok .regReadObp1, .ok .regReadWy, .ok .regReadWx] := rfl

/-- 95, section 7, K1 to K4, K6 to K8, K10, K12. -/
theorem test_decode_refuses :
    [0x00000000#32, 0x70000000#32, 0xF0000000#32, 0x10010000#32, 0x20004600#32, 0x20004C00#32, 0x30004001#32, 0x6000A000#32,
      0x50200000#32].map decode =
    [.error (.reservedOp 0x0#4), .error (.reservedOp 0x7#4), .error (.reservedOp 0xF#4), .error .reservedBits,
      .error (.reservedSel 0x46#8), .error (.reservedSel 0x4C#8), .error (.readValue 1#8), .error (.oamOffset 160#8),
      .error .reservedBits] := rfl

/-- R91: `tick 456`, `wr WX, 87`, `rd STAT`, `fbrd 10, 20`, `vwr 0x9FFF, 0x12`, `owr 159, 7`. -/
theorem test_assemble :
    [AsmLine.tick 456, .wr .wx 87, .rd .stat, .fbrd 10 20, .vwr 0x9FFF 0x12, .owr 159 7].map assemble =
    [some [0x100001C8#32], some [0x20004B57#32], some [0x30004100#32], some [0x4005000A#32], some [0x501FFF12#32],
      some [0x60009F07#32]] := by decide

/-- An operand out of range is an assembly error, not a word (R91). -/
theorem test_assemble_error :
    [AsmLine.tick 65536, .wr .wx 256, .fbrd 16384 0, .vwr 0x7FFF 0, .vwr 0xA000 0, .owr 160 0].map assemble =
    [none, none, none, none, none, none] := by decide

/-- R92: `vfill 0x8010, 2, 0xFF` and `ticks 65535`, whose final `tick 0` is kept. -/
theorem test_assemble_pseudo :
    assemble (.vfill 0x8010 2 0xFF) = some [0x500010FF#32, 0x500011FF#32] ∧
      assemble (.ticks 65535) = some [0x1000FFFF#32, 0x10000000#32] := by decide

/-! ## TICK -/

/-- R-9: `tick 80` from the standard start. -/
theorem test_tick_80 : view (after (start 0x80 0 0) 0x10000050#32) = (.vramTransfer, 0, 0, 0x07#8, .requests []) := by
  decide +kernel

/-- T2, last TICK: VBlank is entered at frame time 65664; VBlank before its LCDSTAT. -/
theorem test_tick_enters_vblank :
    view (after (State.at (start 0x80 0x10 200) .hblank 203 143) 0x10000001#32) =
      (.vblank, 0, 144, 0x11#8, .requests [.vblank, .lcdStat]) := by decide +kernel

/-- E2b, steps 5 and 7: HBlank entry, then the coincidence; OAMScan entry with LY past LYC. -/
theorem test_tick_requests :
    view (after (State.at (start 0x80 0x7F 0) .vramTransfer 171 0) 0x10000001#32) =
      (.hblank, 0, 0, 0x7C#8, .requests [.lcdStat, .lcdStat]) ∧
    view (after (State.at (start 0x80 0x7C 0) .hblank 203 0) 0x10000001#32) =
      (.oamScan, 0, 1, 0x7A#8, .requests [.lcdStat]) := by decide +kernel

/-- T11: a disabled TICK clears STAT[1:0] and discards its cycles. -/
theorem test_tick_disabled : view (after (start 0x00 0x43 0) 0x10000005#32) = (.oamScan, 0, 0, 0x44#8, .requests [.lcdStat]) := by
  decide +kernel

/-- T4 and R-4: the last cycle of line 153 wraps LY; an LY past 144 counts on, in OAMScan lines. -/
theorem test_transition_ly :
    view (transition (State.at (start 0x80 0x21 200) .vblank 0 153)) = (.oamScan, 0, 0, 0x21#8, .nothing) ∧
    view (transition (State.at (start 0x80 0 200) .hblank 0 150)) = (.oamScan, 0, 151, 0, .nothing) ∧
    view (transition (State.at (start 0x80 0 200) .vblank 0 255)) = (.vblank, 0, 0, 0, .nothing) := by decide

/-! ## Register transactions -/

/-- R-1: STAT[1:0] is read-only to the host. -/
theorem test_write_stat : (after (start 0 0x06 0) 0x200041FF#32).regs.stat = 0xFE#8 := by decide

/-- R-4, R-5, R-6: a host write of LY under the three policies. -/
theorem test_write_ly :
    [LyWritePolicy.store, .resetToZero, .ignore].map (fun p =>
      (after { State.at (start 0x80 0 200) .hblank 0 10 with params := { Params.reset with lyWritePolicy := p } }
        0x20004496#32).regs.ly) = [150#8, 0#8, 10#8] := by decide

/-- R-8: a plain write reads back. -/
theorem test_write_then_read :
    (after (after (start 0 0 0) 0x200043FA#32) 0x30004300#32).response = .byte 0xFA#8 ∧
    (after (after (start 0 0 0) 0x200047E4#32) 0x30004700#32).response = .byte 0xE4#8 ∧
    (after (after (start 0 0 0) 0x20004091#32) 0x30004000#32).response = .byte 0x91#8 := by decide

/-- Each REG_READ answers its own register. -/
theorem test_reads_apart :
    [0x30004000#32, 0x30004100#32, 0x30004200#32, 0x30004300#32, 0x30004400#32, 0x30004500#32, 0x30004700#32, 0x30004800#32,
      0x30004900#32, 0x30004A00#32, 0x30004B00#32].map (fun w =>
        (after { State.reset with regs := ⟨40, 41, 44, 45, 43, 42, 51, 50, 47, 48, 49⟩ } w).response) =
    [.byte 40, .byte 41, .byte 42, .byte 43, .byte 44, .byte 45, .byte 47, .byte 48, .byte 49, .byte 50, .byte 51] := by decide

/-! ## Memory, framebuffer, refusal -/

/-- K13, K11: the last byte of VRAM and of OAM. -/
theorem test_memory_writes :
    (after State.reset 0x501FFF12#32).vram = [(0x9FFF, 0x12#8)] ∧ (after State.reset 0x60009F07#32).oam = [(159, 0x07#8)] := by
  decide

/-- Writing the byte an unlisted address reads as removes the entry. -/
theorem test_write_removes : (after (after State.reset 0x501FFF12#32) 0x501FFF00#32).vram = [] := by decide

/-- P1, word 24, and F3: a written pixel, and a pixel that no render has written. -/
theorem test_fb_read :
    (after { State.reset with fb := [(0, [(79, 0xFFFFFF)])] } 0x4000004F#32).response = .colour 0xFFFFFF ∧
    (after State.reset 0x4000004F#32).response = .colour (Config.fbReset 79) := ⟨by decide, rfl⟩

/-- F5: out of range, some value, and nothing else changes but the count. -/
theorem test_fb_read_outside : ∃ c, after State.reset 0x400000A0#32 = { State.reset with response := .colour c, draws := 1 } :=
  ⟨_, rfl⟩

/-- K1: a refused word sets the mark and changes nothing else. -/
theorem test_refused : after (start 0x91 0 0) 0#32 = { start 0x91 0 0 with refusalMark := true, response := .refused } := by decide

/-- F1, F2, F4: FILL at SCALE 2 and 3, and beyond the rows. -/
theorem test_fill :
    fill { Params.reset with scale := 2 } [] 159 0 7 = [(1, [(319, 7), (318, 7)]), (0, [(319, 7), (318, 7)])] ∧
    fill { Params.reset with scale := 3 } [] 0 1 7 =
      [(5, [(2, 7), (1, 7), (0, 7)]), (4, [(2, 7), (1, 7), (0, 7)]), (3, [(2, 7), (1, 7), (0, 7)])] ∧
    fill { Params.reset with fbHeight := .lines144 } [] 0 151 7 = [] := by decide

/-! ## Renderers -/

/-- 95, section 6. -/
theorem test_palette :
    [0xE4#8, 0x1B#8, 0xFC#8, 0xD2#8].map (fun p => [0#2, 1#2, 2#2, 3#2].map fun c => palette c p) =
    [[0, 1, 2, 3], [3, 2, 1, 0], [0, 3, 3, 3], [2, 0, 1, 3]] := by decide

/-- B1: plane 0 gives bit 0; column c takes bit 7 - c. -/
theorem test_bg_planes :
    (List.range 9).map (bgColourId { State.reset with
      regs := { State.reset.regs with lcdc := 0x91#8 }, vram := [(0x8000, 0x55#8), (0x8001, 0x33#8)] } 0) =
    [0, 1, 2, 3, 0, 1, 2, 3, 0] := by decide

/-- B2, B4, B5: the scroll wraps; signed index 0 is at 0x9000 and 0x80 at 0x8800. -/
theorem test_bg_scroll_and_signed :
    [0, 5, 6, 7].map (bgColourId { State.reset with
      regs := { State.reset.regs with lcdc := 0x91#8, scx := 250#8 }, vram := (tile 1 0xFF 0xFF []).write 0x981F 1 } 0) =
      [3, 3, 0, 0] ∧
    bgColourId { State.reset with regs := { State.reset.regs with lcdc := 0x81#8 }
                                  vram := [(0x9000, 0xFF#8), (0x9001, 0xFF#8)] } 0 0 = 3 ∧
    bgColourId { State.reset with regs := { State.reset.regs with lcdc := 0x81#8 }
                                  vram := [(0x8800, 0xFF#8), (0x8801, 0xFF#8), (0x9800, 0x80#8)] } 0 0 = 3 := by decide

/-- W1, W3, W5: where the window starts. -/
theorem test_window :
    [79, 80].map (bgColourId { State.reset with
      regs := { State.reset.regs with lcdc := 0xF1#8, wx := 87#8 }, vram := (tile 1 0xFF 0xFF []).write 0x9C00 1 } 0) = [0, 3] ∧
    [0, 1].map (bgColourId { State.reset with
      regs := { State.reset.regs with lcdc := 0xF1#8 }, vram := (tile 1 0xFF 0xFF []).write 0x9C00 1 } 0) = [3, 0] ∧
    [158, 159].map (bgColourId { State.reset with
      regs := { State.reset.regs with lcdc := 0xF1#8, wx := 166#8 }, vram := (tile 1 0xFF 0xFF []).write 0x9C00 1 } 0) = [0, 3] := by
  decide +kernel

/-- S1, S2, S3, S4: transparency, X flip, Y flip, OBP1. -/
theorem test_sprite_flags :
    [0x00#8, 0x20#8, 0x40#8, 0x10#8].map (fun f => shades (whiteLine (spriteStart (entry 0 16 8 2 f [])) 0) 0 8) =
    [[s3, s3, s1, s1, s2, s2, s0, s0], [s0, s0, s2, s2, s1, s1, s3, s3], [s1, s1, s1, s1, s1, s1, s1, s1],
      [s0, s0, s2, s2, s1, s1, s0, s0]] := by decide +kernel

/-- S9, S10: the lowest index wins; behind the background it reads back what the higher index drew. -/
theorem test_sprite_priority :
    (shades (whiteLine (spriteStart (entry 5 36 18 4 0 (entry 0 36 18 3 0 []))) 20) 20 20).drop 8 =
      [s0, s0, s1, s1, s1, s1, s1, s1, s1, s1, s0, s0] ∧
    (shades (whiteLine (spriteStart (entry 5 36 18 4 0 (entry 0 36 18 3 0x80 []))) 20) 20 20).drop 8 =
      [s0, s0, s2, s2, s2, s2, s2, s2, s2, s2, s0, s0] := by decide +kernel

/-- S16, S17, S18: the tile row of a 16-line sprite. -/
theorem test_tall_sprite :
    spriteRowAddress { spriteStart (entry 0 16 8 7 0 []) with regs := { Regs.reset with lcdc := 0x95 } } 8 0 = 0x8080 ∧
    spriteRowAddress { spriteStart (entry 0 16 8 7 0 []) with
      regs := { Regs.reset with lcdc := 0x95 }, params := { Params.reset with tallSpriteMask := true } } 8 0 = 0x8070 ∧
    spriteRowAddress { spriteStart (entry 0 16 8 7 0x40 []) with regs := { Regs.reset with lcdc := 0x95 } } 8 0 = 0x807E := by
  decide

/-- S7, S8: the two readings of the behind-background test. -/
theorem test_behind_colour :
    behindColour { State.reset with regs := { Regs.reset with bgp := 0xE7 } } = 0xFFFFFF ∧
    behindColour { State.reset with
      regs := { Regs.reset with bgp := 0xE7 }, params := { Params.reset with behindBgTest := .bgpColor0 } } = 0x000000 := by
  decide

/-! ## Witnesses: for each statement with hypotheses, a state and operands that meet them -/

/-- A state with its next words. -/
def waiting (s : State) (l : List Word) : State := { s with input := l }

theorem witness_DecodeOfEncode : Instr.wf (.oamWrite 159#8 0xFF#8) = true ∧ Instr.wf (.fbRead 16383#14 16383#14) = true := by decide

theorem witness_EncodeOfDecode : decode 0x60009F07#32 = .ok (.oamWrite 159#8 7#8) ∧ decode 0x4FFFFFFF#32 = .ok (.fbRead 16383 16383) :=
  ⟨rfl, rfl⟩

/-- Each side of the value constraint: OAM offsets 159 and 160. The last clause: the last row and a word of it. -/
theorem witness_DecoderAcceptsOpcodeTable :
    opField 0x60009F07#32 = 0x6#4 ∧ (oamField 0x60009F07#32).toNat = 159 ∧ opField 0x6000A000#32 = 0x6#4 ∧
      (oamField 0x6000A000#32).toNat = 160 ∧
    opcodeRows[(25 : Fin 26).val]? = some (0x60000000#32, 0xFFFF0000#32) ∧
      0x60009F07#32 &&& 0xFFFF0000#32 = 0x60000000#32 := by decide

/-- A word for each clause of R89, and one word in none. -/
theorem witness_DecoderRejectsReserved :
    (ReservedEncoding 0x00000000#32 ∧ ReservedEncoding 0x7FFFFFFF#32 ∧ ReservedEncoding 0x18000000#32 ∧
      ReservedEncoding 0x50200000#32 ∧ ReservedEncoding 0x20004600#32 ∧ ReservedEncoding 0x30004001#32 ∧
      ReservedEncoding 0x6000A000#32) ∧ ¬ ReservedEncoding 0x60009F07#32 := by
  refine ⟨⟨?_, ?_, ?_, ?_, ?_, ?_, ?_⟩, ?_⟩ <;> unfold ReservedEncoding <;> decide

theorem witness_StepRunsDecodedTransaction :
    (waiting State.reset [0x1000FFFF#32, 0#32]).input = 0x1000FFFF#32 :: [0#32] ∧ decode 0x1000FFFF#32 = .ok (.tick 65535#16) :=
  ⟨rfl, rfl⟩

/-- Both clauses, and the premises of `MarkOnlyFromReservedWord`. -/
theorem witness_ReservedWordIsRefused :
    ((waiting State.reset [0#32]).input = 0#32 :: [] ∧ ReservedEncoding 0#32) ∧
    (step (waiting { State.reset with refusalMark := true } [0x30004400#32]) =
        .next { State.reset with refusalMark := true, response := .byte 0#8 }) :=
  ⟨⟨rfl, by unfold ReservedEncoding; decide⟩, rfl⟩

theorem witness_MarkOnlyFromReservedWord :
    step (waiting State.reset [0#32]) = .next { State.reset with refusalMark := true, response := .refused } ∧
      State.reset.refusalMark = false := ⟨rfl, rfl⟩

theorem witness_ParametersAreFixed : ∃ t, step (waiting State.reset [0x10000000#32]) = .next t := ⟨_, rfl⟩

/-- A creation state whose STAT agrees. -/
theorem witness_LaunchPremises : Created (start 0x80 0x06 0) ∧ StatAgrees (start 0x80 0x06 0) :=
  ⟨⟨by decide, by unfold ModeCreated; decide, by decide, ⟨rfl, rfl, rfl, rfl, rfl⟩, rfl, rfl⟩, by unfold StatAgrees; decide⟩

theorem witness_HostLyWrite :
    ∀ p ∈ [LyWritePolicy.store, .resetToZero, .ignore],
      ({ State.reset with params := { Params.reset with lyWritePolicy := p } } : State).params.lyWritePolicy = p := by decide

/-- The three cases: a plain register, LY under STORE, STAT. -/
theorem witness_ReadAfterWrite :
    (∃ t, exec (regWriteInstr 0xFF#8 .wx) State.reset = .next t) ∧
    (State.reset.params.lyWritePolicy = .store ∧ ∃ t, exec (regWriteInstr 255#8 .ly) State.reset = .next t) ∧
    ∃ t, exec (regWriteInstr 0xFF#8 .stat) State.reset = .next t := ⟨⟨_, rfl⟩, ⟨rfl, ⟨_, rfl⟩⟩, ⟨_, rfl⟩⟩

theorem witness_LcdcToggleWithoutTick : ∃ t u, exec (.regWriteLcdc 0x00#8) (start 0x80 0 0) = .next t ∧
    exec (.regWriteLcdc (start 0x80 0 0).regs.lcdc) t = .next u := ⟨_, _, rfl, rfl⟩

theorem witness_VramWriteStoresByte : Memory.wf (spriteStart []).vram = true ∧ (0x9FFF : Nat) ≠ vramAddress 0x1FFE#13 := by
  decide +kernel

/-- Offsets 159 and 160, either side of the bound. -/
theorem witness_OamWriteStoresByte :
    ((159#8).toNat ≤ 159 ∧ Memory.wf (spriteStart (entry 0 16 8 2 0 [])).oam = true ∧ (158 : Nat) ≠ oamAddress 159#8) ∧
      160 ≤ (160#8).toNat := by decide

/-- The last pixel of a row, and the first beyond it. -/
theorem witness_FbReadResponds :
    Inside Params.reset ((159#14).toNat : Int) ((159#14).toNat : Int) ∧ ¬ Inside Params.reset ((160#14).toNat : Int) ((0#14).toNat : Int) := by
  decide

theorem witness_FbSetStoresOnePixel :
    Inside Params.reset 159 0 ∧ ((158, 0) : Int × Int) ≠ (159, 0) ∧ ¬ Inside Params.reset (-1) 0 := by decide

/-- At SCALE 2: the last pixel of the last block, and the first beyond a block. -/
theorem witness_FillSetsBlock :
    (Inside { Params.reset with scale := 2 } 319 1 ∧ (159 : Int) * 2 ≤ 319 ∧ (319 : Int) ≤ 159 * 2 + 2 - 1 ∧ (0 : Int) * 2 ≤ 1 ∧
      (1 : Int) ≤ 0 * 2 + 2 - 1) ∧
    ¬ ((0 : Int) * 2 ≤ 2 ∧ (2 : Int) ≤ 0 * 2 + 2 - 1 ∧ (0 : Int) * 2 ≤ 0 ∧ (0 : Int) ≤ 0 * 2 + 2 - 1) := by decide

theorem witness_TileAddressModes : 128 ≤ (128#8).toNat ∧ (127#8).toNat < 128 := by decide

/-- Both addressing modes; a sprite that reaches 0x900F; the last OAM entry. -/
theorem witness_RenderAddressesInRange :
    unsignedTiles (start 0x91 0 0) = true ∧ unsignedTiles (start 0x81 0 0) = false ∧
    (spriteVisible { spriteStart (entry 39 16 8 0xFF 0 []) with regs := { Regs.reset with lcdc := 0x95 } } 15 39 = true ∧
      0x9000 ≤ spriteRowAddress { spriteStart (entry 39 16 8 0xFF 0 []) with regs := { Regs.reset with lcdc := 0x95 } } 15 39 + 1) ∧
    39 ∈ scanOrder := by decide

theorem witness_BackgroundFillsLine : 159 < fbWidth Params.reset ∧ 159 < fbHeight Params.reset := by decide

/-- B2 at column 0, the background: map column 31; and a window column. -/
theorem witness_BackgroundPixel :
    let s : State := { State.reset with
      regs := { Regs.reset with lcdc := 0x91#8, scx := 250#8 }, vram := (tile 1 0xFF 0xFF []).write 0x981F 1 }
    let w : State := { State.reset with
      regs := { Regs.reset with lcdc := 0xF1#8, wx := 166#8 }, vram := (tile 1 0xFF 0xFF []).write 0x9C00 1 }
    (¬ (s.params.bgEnableGate = true ∧ bit s.regs.lcdc 0 = false) ∧
      ¬ (bit s.regs.lcdc 5 = true ∧ s.regs.wy.toNat ≤ 0 ∧ s.regs.wx.toNat ≤ 0 + 7) ∧
      250 = (s.regs.scx.toNat + 0) % 256 ∧ 0 = (s.regs.scy.toNat + 0) % 256 ∧
      1#8 = s.vramRead ((if bit s.regs.lcdc 3 then 0x9C00 else 0x9800) + 32 * (0 / 8) + 250 / 8) ∧
      0xFF#8 = s.vramRead (0x8000 + 16 * 1 + 2 * (0 % 8))) ∧
    (bit w.regs.lcdc 5 = true ∧ w.regs.wy.toNat ≤ 0 ∧ w.regs.wx.toNat ≤ 159 + 7) ∧ 0 + w.regs.wx.toNat = 159 + 7 ∧
      1#8 = w.vramRead ((if bit w.regs.lcdc 6 then 0x9C00 else 0x9800) + 32 * (0 / 8) + 0 / 8) := by decide +kernel

/-- A state with the window on. -/
def windowed (wx wy : Byte) : State := { State.reset with regs := { Regs.reset with lcdc := 0xF1, wx := wx, wy := wy } }

/-- The clauses at their boundaries: WY just past the line; WX 6, 7 and 167; an active last column. -/
theorem witness_WindowCornerCases :
    143 < (windowed 7 144).regs.wy.toNat ∧
    (winOn (windowed 6 143) = true ∧ (windowed 6 143).regs.wy.toNat ≤ 143 ∧ (windowed 6 143).regs.wx.toNat ≤ 6) ∧
    (winOn (windowed 7 0) = true ∧ (windowed 7 0).regs.wy.toNat ≤ 0 ∧ (windowed 7 0).regs.wx.toNat = 7) ∧
    167 ≤ (windowed 167 0).regs.wx.toNat ∧ windowActive (windowed 166 0) 143 159 = true := by decide

/-- The gates off, with LCDC[1:0] changed; and each gate on with its bit clear. -/
theorem witness_EnableGates :
    ((start 0x93 0 0).params.bgEnableGate = false ∧ (start 0x93 0 0).params.objEnableGate = false ∧
      ∀ b, 2 ≤ b → bit 0x90#8 b = bit (start 0x93 0 0).regs.lcdc b) ∧
    (({ Params.reset with bgEnableGate := true } : Params).bgEnableGate = true ∧ bit (start 0x90 0 0).regs.lcdc 0 = false) ∧
    (({ Params.reset with objEnableGate := true } : Params).objEnableGate = true ∧ bit (start 0x91 0 0).regs.lcdc 1 = false) := by
  refine ⟨⟨rfl, rfl, fun b hb => ?_⟩, by decide, by decide⟩
  rcases Nat.lt_or_ge b 8 with h | h
  · have key : ∀ b : Fin 8, 2 ≤ b.val → bit 0x90#8 b = bit 0x93#8 b := by decide
    exact key ⟨b, h⟩ hb
  · simp [bit, BitVec.getLsbD_of_ge _ _ h]

/-- Y = 0; a sprite with Y = 160 on line 144; X = 0 and X = 168. -/
theorem witness_SpriteExtent :
    oamY (spriteStart []) 0 = 0#8 ∧
    (160 ≤ (oamY (spriteStart (entry 0 160 8 3 0 [])) 0).toNat ∧ spriteVisible (spriteStart (entry 0 160 8 3 0 [])) 144 0 = true) ∧
    oamX (spriteStart (entry 0 16 0 3 0 [])) 0 = 0#8 ∧ 168 ≤ (oamX (spriteStart (entry 0 16 168 3 0 [])) 0).toNat := by decide

/-- The last line of a sprite, unflipped and flipped. -/
theorem witness_SpriteRowFlip :
    (spriteVisible (spriteStart (entry 0 16 8 2 0 [])) 7 0 = true ∧ bit (oamFlags (spriteStart (entry 0 16 8 2 0 [])) 0) 6 = false) ∧
    (spriteVisible (spriteStart (entry 0 16 8 2 0x40 [])) 7 0 = true ∧
      bit (oamFlags (spriteStart (entry 0 16 8 2 0x40 [])) 0) 6 = true) := by decide

/-- S1, and S3 with its flipped row 7. -/
theorem witness_SpriteColumnColour :
    (spriteVisible (spriteStart (entry 0 16 8 2 0 [])) 0 0 = true ∧ bit 0#8 6 = false ∧ 0 + (16#8).toNat = 0 + 16 ∧
      0xF0#8 = (spriteStart (entry 0 16 8 2 0 [])).vramRead (0x8000 + 16 * 2 + 2 * 0)) ∧
    (spriteVisible (spriteStart (entry 0 16 8 2 0x40 [])) 0 0 = true ∧ bit 0x40#8 6 = true ∧ 7 + 0 + 16 = (16#8).toNat + 7 ∧
      0xFF#8 = (spriteStart (entry 0 16 8 2 0x40 [])).vramRead (0x8000 + 16 * 2 + 2 * 7)) := by decide +kernel

/-- S5: an opaque column over a pixel; the two policies; BGP[1:0] = 0. -/
theorem witness_BehindBackgroundTest :
    (0 < fbWidth (spriteStart (entry 0 16 8 2 0x80 [])).params ∧ 0 < fbHeight (spriteStart (entry 0 16 8 2 0x80 [])).params ∧
      spriteColourId (spriteStart (entry 0 16 8 2 0x80 [])) 0 0 0 ≠ 0#2 ∧
      Covers (spriteStart (entry 0 16 8 2 0x80 [])).params (spriteLeft (spriteStart (entry 0 16 8 2 0x80 [])) 0 + (0 : Nat)) (0 : Nat) 0 0) ∧
    State.reset.params.behindBgTest = .white ∧
    ({ Params.reset with behindBgTest := .bgpColor0 } : Params).behindBgTest = .bgpColor0 ∧ palette 0#2 0xE4#8 = 0#2 := by
  decide +kernel

/-- Slot 5 over slot 9 at columns 10..17 of line 20, and slot 0 elsewhere on the line. -/
def threeSprites : State := spriteStart (entry 9 36 18 3 0 (entry 5 36 18 4 0 (entry 0 36 60 3 0 [])))

/-- The three sprites, with sprite 3 behind the background over the same column. -/
def fourSprites : State := spriteStart (entry 9 36 18 3 0 (entry 5 36 18 4 0 (entry 3 36 18 3 0x80 (entry 0 36 60 3 0 []))))

/-- Sprites of lower index: none that offers a colour, and one behind the background that does. -/
theorem witness_LowestIndexWins : ∀ s ∈ [threeSprites, fourSprites],
    ¬ (s.params.objEnableGate = true ∧ objOn s = false) ∧ (5 : Nat) < 40 ∧ (17 : Nat) < 160 ∧
    17 < fbWidth s.params ∧ 20 < fbHeight s.params ∧ Covers s.params (17 : Nat) (20 : Nat) 17 20 ∧
    bit (oamFlags s 5) 7 = false ∧ spriteOffers s 20 5 17 = some 0x555555 ∧
    ∀ j < 5, spriteOffers s 20 j 17 = none ∨ (bit (oamFlags s j) 7 = true ∧ 0x555555 ≠ behindColour s) := by
  decide +kernel

/-- The second case is not the first: sprite 3 offers a colour. -/
theorem witness_LowestIndexWins_behind : spriteOffers fourSprites 20 3 17 ≠ none := by decide +kernel

/-- A pixel of another line, and a column that no sprite covers. -/
theorem witness_SpritesLeaveOtherPixels :
    18 < fbWidth threeSprites.params ∧ 21 < fbHeight threeSprites.params ∧ 21 / threeSprites.params.scale ≠ 20 ∧
    ∀ i < 40, spriteOffers threeSprites 20 i (18 / threeSprites.params.scale) = none := by decide +kernel

theorem witness_DisabledTick :
    displayOn (start 0x7F 0x43 0) = false ∧
    ((start 0x7F 0x43 0).params.coincidenceWhenDisabled = true ∧ (start 0x7F 0x43 0).regs.lyc = 0#8 ∧
      bit (start 0x7F 0x43 0).regs.stat 6 = true) ∧
    ({ Params.reset with coincidenceWhenDisabled := false } : Params).coincidenceWhenDisabled = false := by decide

theorem witness_EnabledTick : displayOn (start 0x80 0 0) = true := by decide

theorem witness_TickFrame : ∃ t, exec (.tick 65535#16) (start 0x80 0 0) = .next t := ⟨_, rfl⟩

/-- One cycle short of the budget, and `tick 0`. -/
theorem witness_TickWithoutTransition :
    displayOn (start 0x80 0 0) = true ∧ (start 0x80 0 0).acc + (79#16).toNat < budget (start 0x80 0 0).mode ∧
      (start 0x80 0 0).acc + (0#16).toNat < budget (start 0x80 0 0).mode := by decide

/-- The hypotheses of the four rows' statements, for the cycles from `lo` to `hi`. -/
abbrev RowMet (s : State) (m : Mode) (b next : Nat) (lo hi : BitVec 16) : Prop :=
  displayOn s = true ∧ s.mode = m ∧ b ≤ s.acc + lo.toNat ∧ s.acc + lo.toNat < b + next ∧ b ≤ s.acc + hi.toNat ∧
    s.acc + hi.toNat < b + next

theorem witness_OamScanEnds : RowMet (State.at (start 0x80 0 0) .oamScan 79 0) .oamScan 80 172 1#16 172#16 := by decide

theorem witness_VramTransferEnds :
    RowMet (State.at (start 0x80 8 0) .vramTransfer 171 143) .vramTransfer 172 204 1#16 204#16 := by decide

/-- LY = 143 and LY = 142: the two cases of the statement, which exclude each other. -/
theorem witness_HblankEnds :
    (RowMet (State.at (start 0x80 0x10 0) .hblank 203 143) .hblank 204 456 1#16 456#16 ∧
      (State.at (start 0x80 0x10 0) .hblank 203 143).regs.ly.toNat = 143) ∧
    RowMet (State.at (start 0x80 0x20 0) .hblank 203 142) .hblank 204 80 1#16 80#16 ∧
      (State.at (start 0x80 0x20 0) .hblank 203 142).regs.ly.toNat ≠ 143 := by decide

/-- LY = 153 and 254 wrap to 0; 152 and 255 step on: no LY is in both. -/
theorem witness_VblankLineEnds :
    (∀ ly ∈ [153#8, 254#8], RowMet (State.at (start 0x80 0x20 0) .vblank 455 ly) .vblank 456 80 1#16 80#16) ∧
    (∀ ly ∈ [152#8, 255#8], RowMet (State.at (start 0x80 0x20 0) .vblank 455 ly) .vblank 456 456 1#16 456#16) ∧
    (153 ≤ (153#8).toNat ∧ (153#8).toNat ≤ 254) ∧ (153 ≤ (254#8).toNat ∧ (254#8).toNat ≤ 254) ∧
    (152#8).toNat ≤ 152 ∧ (255#8).toNat = 255 ∧
    ∀ v : Byte, ¬ ((153 ≤ v.toNat ∧ v.toNat ≤ 254) ∧ (v.toNat ≤ 152 ∨ v.toNat = 255)) := by
  refine ⟨by decide, by decide, by decide, by decide, by decide, by decide, fun v h => by omega⟩

theorem witness_CoincidenceRefires :
    displayOn (start 0x80 0x40 0) = true ∧ (start 0x80 0x40 0).acc < budget (start 0x80 0x40 0).mode ∧
      (start 0x80 0x40 0).regs.ly = (start 0x80 0x40 0).regs.lyc ∧ bit (start 0x80 0x40 0).regs.stat 6 = true ∧ [()] ≠ [] := by decide

/-- One line in one TICK and in three. -/
theorem witness_ChunkingDoesNotMatter :
    displayOn (start 0x80 0x78 0) = true ∧ [456#16] ≠ [] ∧ [80#16, 0#16, 376#16] ≠ [] ∧
      ([456#16].map tickCycles).sum = ([80#16, 0#16, 376#16].map tickCycles).sum := by decide

/-- The last position of the frame; two equal frame times. -/
theorem witness_FrameTime :
    LineAgrees (State.at (start 0x80 0 0) .vblank 455 153) ∧ AccBelowBudget (State.at (start 0x80 0 0) .vblank 455 153) ∧
      displayOn (State.at (start 0x80 0 0) .vblank 455 153) = true ∧ frameTime (State.at (start 0x80 0 0) .vblank 455 153) = 70223 ∧
      frameTime (start 0x80 0 0) = frameTime (start 0x91 0x38 7) := by
  unfold LineAgrees AccBelowBudget
  decide

theorem witness_VblankOncePerFrame :
    LineAgrees (State.at (start 0x80 0 0) .hblank 203 143) ∧ AccBelowBudget (State.at (start 0x80 0 0) .hblank 203 143) ∧
      displayOn (State.at (start 0x80 0 0) .hblank 203 143) = true ∧
      ∃ t, exec (.tick 1#16) (State.at (start 0x80 0 0) .hblank 203 143) = .next t ∧
        t.response = .requests [.vblank] := by
  unfold LineAgrees AccBelowBudget
  exact ⟨by decide, by decide, by decide, _, rfl, by decide +kernel⟩

/-- From the first position of the window to its last, and from the wrap to its last. -/
theorem witness_StableFrameWindow :
    (LineAgrees (State.at (start 0x80 0 0) .hblank 0 143) ∧ AccBelowBudget (State.at (start 0x80 0 0) .hblank 0 143) ∧
      displayOn (State.at (start 0x80 0 0) .hblank 0 143) = true ∧ 65460 ≤ frameTime (State.at (start 0x80 0 0) .hblank 0 143) ∧
      frameTime (State.at (start 0x80 0 0) .hblank 0 143) + (5015#16).toNat < 70224 + 252 ∧
      ∃ t, exec (.tick 5015#16) (State.at (start 0x80 0 0) .hblank 0 143) = .next t) ∧
    LineAgrees (start 0x80 0 0) ∧ AccBelowBudget (start 0x80 0 0) ∧ displayOn (start 0x80 0 0) = true ∧
      frameTime (start 0x80 0 0) + (251#16).toNat < 252 ∧ ∃ t, exec (.tick 251#16) (start 0x80 0 0) = .next t := by
  unfold LineAgrees AccBelowBudget
  exact ⟨⟨by decide, by decide, by decide, by decide, by decide, _, rfl⟩, by decide, by decide, by decide, by decide, _, rfl⟩

theorem witness_RowsBelowDisplayUnwritten :
    LineAgrees (State.at (start 0x80 0 0) .vramTransfer 171 143) ∧
      (∃ t, exec (.tick 1#16) (State.at (start 0x80 0 0) .vramTransfer 171 143) = .next t) ∧
      159 < fbWidth (start 0x80 0 0).params ∧ 144 < fbHeight (start 0x80 0 0).params ∧ 144 * (start 0x80 0 0).params.scale ≤ 144 := by
  unfold LineAgrees
  exact ⟨by decide, ⟨_, rfl⟩, by decide, by decide, by decide⟩

theorem witness_StepKeepsInvariant : Inv (waiting (spriteStart (entry 39 16 8 2 0x80 [])) [0x100000FC#32]) ∧
    ∃ t, step (waiting (spriteStart (entry 39 16 8 2 0x80 [])) [0x100000FC#32]) = .next t :=
  ⟨⟨by unfold AccBelowBudget; decide, ⟨by decide +kernel, by decide +kernel, by decide, by decide, by decide⟩, rfl⟩, ⟨_, rfl⟩⟩

/-- Both disjuncts of `StatModeAgrees`, with a step. -/
theorem witness_StatModeStaysAgreed :
    StatModeAgrees (State.at (start 0x80 0x03 0) .vramTransfer 0 0) ∧ StatModeAgrees (waiting (start 0 0 0) [0x200041FF#32]) ∧
      (∃ t, step (waiting (start 0 0 0) [0x200041FF#32]) = .next t) ∧ ∃ t, exec (.tick 0#16) (start 0 0 0) = .next t := by
  unfold StatModeAgrees
  exact ⟨by decide, by decide, ⟨_, rfl⟩, ⟨_, rfl⟩⟩

/-- The standard start is a creation state, so it is reachable; and a disabled TICK. -/
theorem witness_ReachableLines : Created (start 0x80 0 0) ∧ Reachable (start 0x80 0 0) ∧
    displayOn (start 0 0 0) = false ∧ ∃ t, exec (.tick 0#16) (start 0 0 0) = .next t := by
  have h : Created (start 0x80 0 0) := ⟨by decide, by unfold ModeCreated; decide, by decide, ⟨rfl, rfl, rfl, rfl, rfl⟩, rfl, rfl⟩
  exact ⟨h, .created h, by decide, ⟨_, rfl⟩⟩

/-- A transaction of each agent. -/
theorem witness_AgentsKeepToTheirState :
    (agentOf (.fbRead 0 0) ≠ .driver ∧ agentOf (.fbRead 0 0) = .presentation ∧ ∃ t, exec (.fbRead 0 0) State.reset = .next t) ∧
    (agentOf (.oamWrite 0 0) = .host ∧ (∃ t, exec (.oamWrite 0 0) State.reset = .next t) ∧
      (∀ v, Instr.oamWrite 0 0 ≠ .regWriteStat v) ∧ ∀ v, Instr.oamWrite 0 0 ≠ .regWriteLy v) :=
  ⟨⟨by decide, rfl, ⟨_, rfl⟩⟩, rfl, ⟨_, rfl⟩, by simp, by simp⟩

end Sys2Proof.Tests
end

section
/-! Steps: what a transaction leaves of the launch parameters, and the settled obligations of 00_scope.md. -/

namespace Sys2Proof.Machine

/-! ## The launch parameters are kept (R8, R242) -/

@[simp] theorem enabledTick_params (s : State) (n : Nat) : (enabledTick s n).params = s.params := by
  simp [enabledTick]

@[simp] theorem disabledTick_params (s : State) : (disabledTick s).params = s.params := by
  rw [disabledTick_eq]
  split <;> simp

@[simp] theorem tick_params (s : State) (n : Nat) : (tick s n).params = s.params := by
  cases h : displayOn s with
  | true => simp [tick_enabled h]
  | false => simp [tick_disabled h]

/-- Every transaction keeps the launch parameters: TICK by its two paths, the framebuffer read and the OAM write on both of
their branches, and the others because they write other fields only. -/
theorem exec_params {i : Instr} {s t : State} (h : exec i s = .next t) : t.params = s.params := by
  cases i with
  | tick n => cases h; exact tick_params s (tickCycles n)
  | fbRead x y => cases h; split <;> rfl
  | oamWrite a v => cases h; split <;> rfl
  | _ => cases h; rfl

/-! ## Settled obligations -/

/-- Settles O11, by the three things a step can do. -/
theorem parametersAreFixed : Obligations.ParametersAreFixed := by
  intro s t h
  obtain ⟨-, rfl⟩ | ⟨w, rest, i, -, -, hexec⟩ | ⟨w, rest, r, -, -, rfl⟩ := step_cases h
  · rfl
  · calc t.params = ({ s with input := rest } : State).params := exec_params hexec
      _ = s.params := rfl
  · exact State.refuseWord_params _

/-- Settles O7: the input is not empty and its word decodes, so both matches of `step` take their transaction's branch. -/
theorem stepRunsDecodedTransaction : Obligations.StepRunsDecodedTransaction := by
  intro s w rest i hinput hdecode
  simp only [step, hinput, hdecode]

end Sys2Proof.Machine
end

section
/-! State: TICK's disable path field by field, what a transaction leaves unchanged, the sequencer's position along the loop, and
the settled obligations of 10_state.md. -/

namespace Sys2Proof.Machine

/-! ## TICK -/

/-- STAT after the disable path (R108). -/
def disabledStat (s : State) : Byte :=
  if s.params.coincidenceWhenDisabled then
    withCoincidence (withStatMode s.regs.stat 0#2) (0#8 == s.regs.lyc)
  else withStatMode s.regs.stat 0#2

@[simp] theorem statMode_disabledStat (s : State) : statMode (disabledStat s) = 0#2 := by
  unfold disabledStat
  split <;> simp

theorem bit_disabledStat (s : State) {b : Nat} (hb : 3 ≤ b) : bit (disabledStat s) b = bit s.regs.stat b := by
  have hmode := bit_withStatMode s.regs.stat 0#2 (b := b) (by omega)
  unfold disabledStat
  split
  · rw [bit_withCoincidence _ _ (by omega), hmode]
  · exact hmode

/-- A disabled TICK (R108): the cycles are discarded, LY, STAT, the accumulator and the mode are written, and the response is
the comparator's request, if `COINCIDENCE_WHEN_DISABLED`. -/
theorem tick_disabled_eq {s : State} (h : displayOn s = false) (n : Nat) :
    tick s n = { s with
      regs := { s.regs with ly := 0#8, stat := disabledStat s }
      mode := .oamScan
      acc := 0
      requests := []
      response := .requests
        (if s.params.coincidenceWhenDisabled then requestIf (0#8 == s.regs.lyc && ieLyc s) .lcdStat else []) } := by
  have henable := bit_withStatMode s.regs.stat 0#2 (b := 6) (by omega)
  rw [tick_disabled h, disabledTick_eq, disabledStat]
  cases hc : s.params.coincidenceWhenDisabled with
  | true => simp [emitRequests, coincidence_eq, ieLyc, henable]
  | false => simp [emitRequests, State.setReg]

/-- An enabled TICK leaves the sequencer's position and the framebuffer where the loop leaves them. -/
theorem tick_enabled_position {s : State} (h : displayOn s = true) (n : Nat) :
    (tick s n).mode = (advance { s with requests := [] } n).mode ∧
      (tick s n).acc = (advance { s with requests := [] } n).acc ∧
      (tick s n).regs.ly = (advance { s with requests := [] } n).regs.ly ∧
      (tick s n).fb = (advance { s with requests := [] } n).fb := by
  rw [tick_enabled_eq h n _ rfl]
  exact ⟨rfl, rfl, rfl, rfl⟩

/-- A TICK keeps STAT[7:3]. -/
theorem bit_tick_stat (s : State) (n : Nat) {b : Nat} (hb : 3 ≤ b) :
    bit (tick s n).regs.stat b = bit s.regs.stat b := by
  cases h : displayOn s with
  | true =>
    rw [tick_enabled_regs h]
    dsimp only
    rw [bit_withCoincidence _ _ (by omega), bit_withStatMode _ _ (by omega)]
  | false =>
    rw [tick_disabled_eq h]
    exact bit_disabledStat s hb

/-- A TICK writes no register but LY and STAT. -/
theorem tick_regs (s : State) (n : Nat) :
    (tick s n).regs = { s.regs with ly := (tick s n).regs.ly, stat := (tick s n).regs.stat } := by
  cases h : displayOn s with
  | true => rw [tick_enabled_regs h]
  | false => rw [tick_disabled_eq h]

/-- A TICK writes neither memory, nor the mark, nor the model's own fields. -/
theorem tick_frame (s : State) (n : Nat) :
    (tick s n).vram = s.vram ∧ (tick s n).oam = s.oam ∧ (tick s n).refusalMark = s.refusalMark ∧
      (tick s n).input = s.input ∧ (tick s n).draws = s.draws := by
  cases h : displayOn s with
  | true => rw [tick_enabled_eq h n _ rfl]; simp
  | false => rw [tick_disabled_eq h]; simp

@[simp] theorem tick_requests (s : State) (n : Nat) : (tick s n).requests = [] := rfl

/-- A TICK does not switch the display on or off. -/
@[simp] theorem displayOn_tick (s : State) (n : Nat) : displayOn (tick s n) = displayOn s := by
  unfold displayOn
  rw [tick_regs]

/-- After every TICK the accumulator is below the budget of the mode (R30 (a), R101). -/
theorem tick_accBelowBudget (s : State) (n : Nat) : AccBelowBudget (tick s n) := by
  cases h : displayOn s with
  | true =>
    obtain ⟨hmode, hacc, -⟩ := tick_enabled_position h n
    rw [AccBelowBudget, hmode, hacc]
    exact advance_acc_lt _ n
  | false =>
    rw [tick_disabled_eq h]
    exact Nat.lt_of_lt_of_le (by decide : 0 < 80) (budget_ge .oamScan)

/-- After every TICK STAT[1:0] is the mode's code, or 0 as the disable path leaves it (R30 (b), (c)). -/
theorem tick_statModeAgrees (s : State) (n : Nat) : StatModeAgrees (tick s n) := by
  cases h : displayOn s with
  | true =>
    refine .inl ?_
    rw [tick_enabled_eq h n _ rfl]
    simp
  | false =>
    refine .inr ?_
    rw [tick_disabled_eq h]
    simp

/-! ## Transactions -/

theorem exec_tick_eq {n : BitVec 16} {s t : State} (h : exec (.tick n) s = .next t) : t = tick s n.toNat := by
  cases h; rfl

/-- A transaction is a TICK, whose next state is `tick`'s, or none. -/
theorem exec_tick_or_other {i : Instr} {s t : State} (h : exec i s = .next t) :
    (∃ n, t = tick s n) ∨ ∀ n, i ≠ .tick n := by
  cases i with
  | tick n => exact .inl ⟨n.toNat, exec_tick_eq h⟩
  | _ => exact .inr (by simp)

/-- A transaction that is no TICK leaves the sequencer, the framebuffer, the requests and STAT[1:0] as they were. -/
theorem exec_other_frame {i : Instr} {s t : State} (hi : ∀ n, i ≠ .tick n) (h : exec i s = .next t) :
    t.mode = s.mode ∧ t.acc = s.acc ∧ t.fb = s.fb ∧ t.requests = s.requests ∧
      statMode t.regs.stat = statMode s.regs.stat := by
  cases i with
  | tick n => exact absurd rfl (hi n)
  | regWriteStat v => cases h; exact ⟨rfl, rfl, rfl, rfl, statMode_hostStat s.regs.stat v⟩
  | fbRead x y => cases h; split <;> exact ⟨rfl, rfl, rfl, rfl, rfl⟩
  | oamWrite a v => cases h; split <;> exact ⟨rfl, rfl, rfl, rfl, rfl⟩
  | _ => cases h; exact ⟨rfl, rfl, rfl, rfl, rfl⟩

/-- Only TICK and a host write of LY write LY. -/
theorem exec_other_ly {i : Instr} {s t : State} (hi : ∀ n, i ≠ .tick n) (hly : ∀ v, i ≠ .regWriteLy v)
    (h : exec i s = .next t) : t.regs.ly = s.regs.ly := by
  cases i with
  | tick n => exact absurd rfl (hi n)
  | regWriteLy v => exact absurd rfl (hly v)
  | fbRead x y => cases h; split <;> rfl
  | oamWrite a v => cases h; split <;> rfl
  | _ => cases h; rfl

/-- A transaction leaves VRAM as it was, or writes one byte at an address VRAM_WRITE can form. -/
theorem exec_vram {i : Instr} {s t : State} (h : exec i s = .next t) :
    t.vram = s.vram ∨ ∃ a v, t.vram = s.vram.write (vramAddress a) v := by
  cases i with
  | tick n => exact .inl (exec_tick_eq h ▸ (tick_frame s n.toNat).1)
  | fbRead x y => cases h; split <;> exact .inl rfl
  | vramWrite a v => cases h; exact .inr ⟨a, v, rfl⟩
  | oamWrite a v => cases h; split <;> exact .inl rfl
  | _ => cases h; exact .inl rfl

/-- A transaction leaves OAM as it was, or writes one byte at an offset 0..159. -/
theorem exec_oam {i : Instr} {s t : State} (h : exec i s = .next t) :
    t.oam = s.oam ∨ ∃ a v, oamAddress a ≤ 159 ∧ t.oam = s.oam.write (oamAddress a) v := by
  cases i with
  | tick n => exact .inl (exec_tick_eq h ▸ (tick_frame s n.toNat).2.1)
  | fbRead x y => cases h; split <;> exact .inl rfl
  | oamWrite a v =>
    cases h
    split
    · exact .inr ⟨a, v, ‹_›, rfl⟩
    · exact .inl rfl
  | _ => cases h; exact .inl rfl

/-! ## Invariants of a step -/

/-- What does not look at the input, a refusal keeps and the effect of the decoded transaction keeps, a step keeps. -/
theorem step_keeps {P : State → Prop} {s t : State} (hinput : ∀ (u : State) l, P u → P { u with input := l })
    (hrefuse : ∀ u, P u → P (State.refuseWord u))
    (hexec : ∀ w rest i, s.input = w :: rest → decode w = .ok i → ∀ u v, P u → exec i u = .next v → P v)
    (h : step s = .next t) (hs : P s) : P t := by
  obtain ⟨-, rfl⟩ | ⟨w, rest, i, hw, hi, ht⟩ | ⟨w, rest, r, -, -, rfl⟩ := step_cases h
  · exact hs
  · exact hexec w rest i hw hi _ t (hinput s rest hs) ht
  · exact hrefuse _ (hinput s rest hs)

/-! ## The sequencer's position (R31, R38) -/

/-- What the accumulator's cycles and every paid transition keep, the loop of a TICK keeps. -/
theorem advance_keeps {P : State → Prop}
    (hP : ∀ s, budget s.mode ≤ s.acc → P s → P (transition { s with acc := s.acc - budget s.mode })) {s : State} {n : Nat}
    (h : P { s with acc := s.acc + n }) : P (advance s n) := by
  rw [advance_eq]
  exact runSequencer_keeps hP _ h

/-- On the lines of R31 LY steps without wrapping. -/
theorem toNat_ly_succ {ly : Byte} (h : ly.toNat ≤ 153) : (ly + 1#8).toNat = ly.toNat + 1 := by
  bv_omega

/-- The mode and LY after a transition from a position of R31 (R102). -/
theorem transition_position {s : State} (h : LineAgrees s) :
    (s.mode = .oamScan ∧ (transition s).mode = .vramTransfer ∧ (transition s).regs.ly.toNat = s.regs.ly.toNat) ∨
    (s.mode = .vramTransfer ∧ (transition s).mode = .hblank ∧ (transition s).regs.ly.toNat = s.regs.ly.toNat) ∨
    (s.mode = .hblank ∧ s.regs.ly.toNat = 143 ∧
      (transition s).mode = .vblank ∧ (transition s).regs.ly.toNat = 144) ∨
    (s.mode = .hblank ∧ s.regs.ly.toNat < 143 ∧
      (transition s).mode = .oamScan ∧ (transition s).regs.ly.toNat = s.regs.ly.toNat + 1) ∨
    (s.mode = .vblank ∧ s.regs.ly.toNat = 153 ∧ (transition s).mode = .oamScan ∧ (transition s).regs.ly.toNat = 0) ∨
    (s.mode = .vblank ∧ s.regs.ly.toNat < 153 ∧
      (transition s).mode = .vblank ∧ (transition s).regs.ly.toNat = s.regs.ly.toNat + 1) := by
  obtain ⟨hly, hvb⟩ := h
  have hsucc := toNat_ly_succ hly
  obtain ⟨hm, ht⟩ | ⟨hm, ht⟩ | ⟨hm, h144, ht⟩ | ⟨hm, h144, ht⟩ | ⟨hm, h153, ht⟩ | ⟨hm, h153, ht⟩ := transition_cases s
  · exact .inl ⟨hm, by simp [ht]⟩
  · exact .inr (.inl ⟨hm, by simp [ht]⟩)
  · have hly143 : s.regs.ly.toNat = 143 := by rw [h144] at hsucc; exact (Nat.succ.inj hsucc).symm
    exact .inr (.inr (.inl ⟨hm, hly143, by simp [ht]⟩))
  · have hne : s.regs.ly.toNat + 1 ≠ 144 := fun h => h144 (BitVec.eq_of_toNat_eq (hsucc.trans h))
    have hlow : ¬ 144 ≤ s.regs.ly.toNat := fun h => by simpa [hm] using hvb.2 h
    exact .inr (.inr (.inr (.inl ⟨hm, by omega, by simp [ht], by rw [ht]; simpa using hsucc⟩)))
  · exact .inr (.inr (.inr (.inr (.inl ⟨hm, by omega, by simp [ht]⟩))))
  · exact .inr (.inr (.inr (.inr (.inr ⟨hm, by omega, by simp [ht, hm], by rw [ht]; exact hsucc⟩))))

/-- A transition keeps R31. -/
theorem transition_lineAgrees {s : State} (h : LineAgrees s) : LineAgrees (transition s) := by
  have hpos := transition_position h
  obtain ⟨hly, hvb⟩ := h
  unfold LineAgrees
  obtain ⟨hm, hm', hly'⟩ | ⟨hm, hm', hly'⟩ | ⟨hm, hl, hm', hly'⟩ | ⟨hm, hl, hm', hly'⟩ | ⟨hm, hl, hm', hly'⟩ |
    ⟨hm, hl, hm', hly'⟩ := hpos <;>
    simp only [hm, hm', hly', reduceCtorEq, false_iff, true_iff] at hvb ⊢ <;> omega

/-- From a position of R31 a transition moves the frame time on by the budget of the mode it leaves, modulo a frame. -/
theorem transition_frameTime {s : State} (h : LineAgrees s) :
    frameTime (transition s) ≡ frameTime s + budget s.mode [MOD 70224] := by
  unfold Nat.ModEq frameTime
  obtain ⟨hm, hm', hly'⟩ | ⟨hm, hm', hly'⟩ | ⟨hm, hl, hm', hly'⟩ | ⟨hm, hl, hm', hly'⟩ | ⟨hm, hl, hm', hly'⟩ |
    ⟨hm, hl, hm', hly'⟩ := transition_position h <;>
    simp only [hm, hm', hly', modeOffset, budget, transition_acc] <;> omega

theorem frameTime_with_acc (s : State) (c : Nat) : frameTime { s with acc := c } + s.acc = frameTime s + c := by
  simp only [frameTime]
  omega

/-- From a position of R31 the loop ends in one. -/
theorem advance_lineAgrees {s : State} (h : LineAgrees s) (n : Nat) : LineAgrees (advance s n) :=
  advance_keeps (P := LineAgrees) (fun t _ (ht : LineAgrees { t with acc := t.acc - budget t.mode }) =>
    transition_lineAgrees ht) h

/-- The loop moves the frame time on by its cycles, modulo a frame (R38). -/
theorem advance_frameTime {s : State} (h : LineAgrees s) (n : Nat) :
    frameTime (advance s n) ≡ frameTime s + n [MOD 70224] := by
  refine (advance_keeps (P := fun t => LineAgrees t ∧ frameTime t ≡ frameTime s + n [MOD 70224])
    (fun t hb ⟨hline, hmod⟩ => ?_) ⟨h, ?_⟩).2
  · have hpaid : LineAgrees { t with acc := t.acc - budget t.mode } := hline
    refine ⟨transition_lineAgrees hpaid, Nat.ModEq.trans ?_ hmod⟩
    have hacc := frameTime_with_acc t (t.acc - budget t.mode)
    calc frameTime (transition { t with acc := t.acc - budget t.mode })
      _ ≡ frameTime { t with acc := t.acc - budget t.mode } + budget t.mode [MOD 70224] := transition_frameTime hpaid
      _ = frameTime t := by omega
  · have hacc := frameTime_with_acc s (s.acc + n)
    rw [show frameTime { s with acc := s.acc + n } = frameTime s + n by omega]

/-- Every TICK keeps R31; a disabled one establishes it. -/
theorem tick_lineAgrees {s : State} (n : Nat) (h : displayOn s = true → LineAgrees s) : LineAgrees (tick s n) := by
  cases hd : displayOn s with
  | true =>
    obtain ⟨hmode, -, hly, -⟩ := tick_enabled_position hd n
    have hadv : LineAgrees (advance { s with requests := [] } n) := advance_lineAgrees (s := { s with requests := [] }) (h hd) n
    rwa [LineAgrees, hmode, hly]
  | false =>
    rw [tick_disabled_eq hd]
    simp [LineAgrees]

/-- In a position of R31 that pays for no transition, the cycles counted in the current line are fewer than a line's 456. -/
theorem modeOffset_add_acc_lt {s : State} (h : AccBelowBudget s) : modeOffset s.mode + s.acc < 456 := by
  unfold AccBelowBudget at h
  cases hm : s.mode <;> simp only [hm, budget, modeOffset] at h ⊢ <;> omega

/-- R38: the frame time is below a frame's 154 lines. -/
theorem frameTime_lt {s : State} (hline : LineAgrees s) (hacc : AccBelowBudget s) : frameTime s < 70224 := by
  have hoff := modeOffset_add_acc_lt hacc
  obtain ⟨hly, -⟩ := hline
  unfold frameTime
  omega

/-- R38: an enabled TICK moves the frame time on by its cycles, modulo a frame. -/
theorem tick_frameTime {s : State} (hline : LineAgrees s) (hd : displayOn s = true) (n : Nat) :
    frameTime (tick s n) = (frameTime s + n) % 70224 := by
  obtain ⟨hmode, hacc, hly, -⟩ := tick_enabled_position hd n
  have hmod : frameTime (tick s n) ≡ frameTime s + n [MOD 70224] := by
    rw [frameTime, hmode, hacc, hly]
    exact advance_frameTime (s := { s with requests := [] }) hline n
  rw [← hmod, Nat.mod_eq_of_lt (frameTime_lt (tick_lineAgrees n fun _ => hline) (tick_accBelowBudget s n))]

/-- The mode of a position, from its line and the cycles counted in it (R29, R31, R38). -/
theorem mode_of_position {s : State} (hline : LineAgrees s) (hacc : AccBelowBudget s) :
    s.mode =
      if 144 ≤ s.regs.ly.toNat then .vblank
      else if modeOffset s.mode + s.acc < 80 then .oamScan
      else if modeOffset s.mode + s.acc < 252 then .vramTransfer
      else .hblank := by
  have hvb := hline.2
  unfold AccBelowBudget at hacc
  cases hm : s.mode <;> simp only [hm, budget, reduceCtorEq, true_iff, false_iff] at hacc hvb <;>
    grind [modeOffset]

/-- R38: the frame time determines LY, with it the cycles counted in the line, and with both the mode. -/
theorem position_of_frameTime {s t : State} (hs : LineAgrees s) (hsacc : AccBelowBudget s) (ht : LineAgrees t)
    (htacc : AccBelowBudget t) (h : frameTime s = frameTime t) :
    s.mode = t.mode ∧ s.acc = t.acc ∧ s.regs.ly = t.regs.ly := by
  have hslt := modeOffset_add_acc_lt hsacc
  have htlt := modeOffset_add_acc_lt htacc
  unfold frameTime at h
  have hly : s.regs.ly.toNat = t.regs.ly.toNat := by omega
  have hcycles : modeOffset s.mode + s.acc = modeOffset t.mode + t.acc := by omega
  have hmode : s.mode = t.mode := by
    rw [mode_of_position hs hsacc, mode_of_position ht htacc, hly, hcycles]
  rw [hmode] at hcycles
  exact ⟨hmode, Nat.add_left_cancel hcycles, BitVec.eq_of_toNat_eq hly⟩

/-! ## Reachable states -/

theorem decode_encodeTick (n : BitVec 16) : decode (encode (.tick n)) = .ok (.tick n) := by
  simp only [encode, decode, opField_encodeTick, if_true, decodeTick, reserved_encodeTick, cyclesField_encodeTick]

/-- From a reachable state a waiting TICK leads to a reachable state. -/
theorem reachable_tick {s : State} {n : BitVec 16} {rest : List Word} (h : Reachable s)
    (hinput : s.input = encode (.tick n) :: rest) : Reachable (tick { s with input := rest } n.toNat) := by
  refine .step h ?_ (stepRunsDecodedTransaction s _ rest _ hinput (decode_encodeTick n))
  rintro ⟨w, rest', v, hw, hdecode⟩
  rw [hinput, List.cons.injEq] at hw
  rw [← hw.1, decode_encodeTick] at hdecode
  cases hdecode

/-- A launch with the display on, at the start of line `ly`, with one TICK waiting. -/
def launchOnLine (ly : Byte) (n : BitVec 16) : State :=
  { State.reset with regs := { Regs.reset with lcdc := 0x80#8, ly := ly }, input := [encode (.tick n)] }

theorem launchOnLine_created {ly : Byte} (n : BitVec 16) (h : ly.toNat ≤ 143) : Created (launchOnLine ly n) :=
  ⟨(by decide : Params.reset.wf = true), ⟨rfl, rfl⟩, h, ⟨rfl, rfl, rfl, rfl, rfl⟩, rfl, rfl⟩

theorem displayOn_launchOnLine (ly : Byte) (n : BitVec 16) : displayOn (launchOnLine ly n) = true :=
  (by decide : bit 0x80#8 7 = true)

/-- In every reachable state LY and the mode agree as R31 says. -/
theorem reachable_lineAgrees {s : State} (h : Reachable s) : LineAgrees s := by
  induction h with
  | created h =>
    have hly := h.line_visible
    refine ⟨by omega, ?_⟩
    rw [h.mode_created.1]
    simpa using Nat.lt_succ_of_le hly
  | @step s s' _ noLy next ih =>
    refine step_keeps (P := LineAgrees) (fun _ _ hu => hu) (fun _ hu => hu) (fun w rest i hw hi u v hu he => ?_) next ih
    obtain ⟨n, rfl⟩ | hother := exec_tick_or_other he
    · exact tick_lineAgrees n fun _ => hu
    · have hly := exec_other_ly hother (fun b hb => noLy ⟨w, rest, b, hw, hb ▸ hi⟩) he
      rwa [LineAgrees, (exec_other_frame hother he).1, hly]

/-- Every frame time is that of a reachable position with the display on: launch at the start of its line, or of line 143 if it
lies in VBlank, and count the cycles from there. -/
theorem exists_reachable_frameTime {k : Nat} (hk : k < 70224) :
    ∃ s, Reachable s ∧ displayOn s = true ∧ LineAgrees s ∧ AccBelowBudget s ∧ frameTime s = k := by
  have hly : (BitVec.ofNat 8 (min (k / 456) 143)).toNat = min (k / 456) 143 := Nat.mod_eq_of_lt (by omega)
  have hn : (BitVec.ofNat 16 (k - 456 * min (k / 456) 143)).toNat = k - 456 * min (k / 456) 143 :=
    Nat.mod_eq_of_lt (by omega)
  generalize BitVec.ofNat 8 (min (k / 456) 143) = ly at hly
  generalize BitVec.ofNat 16 (k - 456 * min (k / 456) 143) = n at hn
  have hlaunch : Reachable (launchOnLine ly n) := .created (launchOnLine_created n (by omega))
  have hreach := reachable_tick hlaunch rfl
  have hstart : frameTime { launchOnLine ly n with input := [] } = 456 * ly.toNat := rfl
  have hon := displayOn_launchOnLine ly n
  have hline : LineAgrees (launchOnLine ly n) := reachable_lineAgrees hlaunch
  refine ⟨_, hreach, (displayOn_tick _ _).trans hon, reachable_lineAgrees hreach, tick_accBelowBudget _ _, ?_⟩
  rw [tick_frameTime (s := { launchOnLine ly n with input := [] }) hline hon, hstart]
  omega

/-! ## Canonical storage (R35, R50) -/

/-- The loop of a TICK keeps the framebuffer's canonical form. -/
theorem advance_fb_wf {s : State} (h : Framebuffer.wf s.params s.fb = true) (n : Nat) :
    Framebuffer.wf s.params (advance s n).fb = true := by
  have hloop : Framebuffer.wf (advance s n).params (advance s n).fb = true := by
    refine advance_keeps (P := fun t => Framebuffer.wf t.params t.fb = true) (fun t _ ht => ?_) h
    rw [transition_params, transition_fb]
    split
    · exact spriteFramebuffer_wf (s := renderBgWindow _ _) (bgFramebuffer_wf ht _) _
    · exact ht
  rwa [advance_params] at hloop

theorem tick_fb_wf {s : State} (h : Framebuffer.wf s.params s.fb = true) (n : Nat) :
    Framebuffer.wf s.params (tick s n).fb = true := by
  cases hd : displayOn s with
  | true =>
    rw [(tick_enabled_position hd n).2.2.2]
    exact advance_fb_wf (s := { s with requests := [] }) h n
  | false => rw [tick_disabled_eq hd]; exact h

/-- Every transaction keeps the memories and the framebuffer canonical and within their spaces. -/
theorem exec_storageWf {i : Instr} {s t : State} (h : exec i s = .next t) (hs : StorageWf s) : StorageWf t where
  vram_wf := by
    obtain hv | ⟨a, v, hv⟩ := exec_vram h <;> rw [hv]
    · exact hs.vram_wf
    · exact Memory.write_wf hs.vram_wf _ v
  vram_within := by
    obtain hv | ⟨a, v, hv⟩ := exec_vram h <;> rw [hv]
    · exact hs.vram_within
    · exact Memory.write_within hs.vram_within v (by unfold vramAddress; omega)
  oam_wf := by
    obtain ho | ⟨a, v, -, ho⟩ := exec_oam h <;> rw [ho]
    · exact hs.oam_wf
    · exact Memory.write_wf hs.oam_wf _ v
  oam_within := by
    obtain ho | ⟨a, v, ha, ho⟩ := exec_oam h <;> rw [ho]
    · exact hs.oam_within
    · exact Memory.write_within hs.oam_within v (by omega)
  fb_wf := by
    rw [exec_params h]
    obtain ⟨n, rfl⟩ | hother := exec_tick_or_other h
    · exact tick_fb_wf hs.fb_wf n
    · rw [(exec_other_frame hother h).2.2.1]
      exact hs.fb_wf

/-- Every transaction keeps the invariant. -/
theorem exec_inv {i : Instr} {s t : State} (hs : Inv s) (h : exec i s = .next t) : Inv t := by
  have hstorage := exec_storageWf h hs.storage
  obtain ⟨n, rfl⟩ | hother := exec_tick_or_other h
  · exact ⟨tick_accBelowBudget s n, hstorage, tick_requests s n⟩
  · obtain ⟨hmode, hacc, -, hreq, -⟩ := exec_other_frame hother h
    exact ⟨by rw [AccBelowBudget, hmode, hacc]; exact hs.acc_below, hstorage, hreq.trans hs.no_requests⟩

/-! ## Pixel rows a render writes -/

theorem renderLine_fb (s : State) :
    (renderLine s).fb = spriteFramebuffer (renderBgWindow s s.regs.ly.toNat) s.regs.ly.toNat := rfl

/-- The background render of a line writes no pixel outside the line's rows (R130, R172). -/
theorem fbPixel_bgFramebuffer_other (s : State) {line a b : Nat} (ha : a < fbWidth s.params) (hb : b < fbHeight s.params)
    (hrow : b / s.params.scale ≠ line) :
    fbPixel s.params (bgFramebuffer s line) a b = fbPixel s.params s.fb a b := by
  refine forEach_pixel_unwritten (fun px _ fb => ?_) s.fb
  rw [fbPixel_fill _ _ _ _ _ ha hb, if_neg fun hc => hrow (row_of_covers hb hc)]

/-- The sprite render of a line writes no pixel outside the line's rows (R150, R172). -/
theorem fbPixel_spriteFramebuffer_other (s : State) {line a b : Nat} (ha : a < fbWidth s.params)
    (hb : b < fbHeight s.params) (hrow : b / s.params.scale ≠ line) :
    fbPixel s.params (spriteFramebuffer s line) a b = fbPixel s.params s.fb a b := by
  unfold spriteFramebuffer
  split
  · rfl
  · refine forEach_pixel_unwritten (fun i _ fb => fbPixel_drawSprite_other s line fb i ha hb fun hc => hrow ?_) s.fb
    norm_cast at hc
    exact (Nat.div_eq_iff (scale_pos hb)).2 (by omega)

/-- The render of the current line writes no pixel outside the line's rows (R105). -/
theorem fbPixel_renderLine_other {s : State} {a b : Nat} (ha : a < fbWidth s.params) (hb : b < fbHeight s.params)
    (hrow : b / s.params.scale ≠ s.regs.ly.toNat) : fbPixel s.params (renderLine s).fb a b = fbPixel s.params s.fb a b :=
  calc fbPixel s.params (renderLine s).fb a b
    _ = fbPixel s.params (renderBgWindow s s.regs.ly.toNat).fb a b :=
      fbPixel_spriteFramebuffer_other (renderBgWindow s s.regs.ly.toNat) ha hb hrow
    _ = fbPixel s.params s.fb a b := fbPixel_bgFramebuffer_other s ha hb hrow

/-- From a position of R31 a transition writes no pixel row below line 143: only the end of VRAMTransfer renders, and its line
is at most 143. -/
theorem fbPixel_transition_belowDisplay {s : State} {a b : Nat} (hline : LineAgrees s) (ha : a < fbWidth s.params)
    (hb : b < fbHeight s.params) (hrow : 144 * s.params.scale ≤ b) :
    fbPixel s.params (transition s).fb a b = fbPixel s.params s.fb a b := by
  rw [transition_fb]
  split_ifs with hm
  · have hvisible : ¬ 144 ≤ s.regs.ly.toNat := by rw [← hline.2, hm]; decide
    have hbelow : 144 ≤ b / s.params.scale := (Nat.le_div_iff_mul_le (scale_pos hb)).2 hrow
    exact fbPixel_renderLine_other ha hb (by omega)
  · rfl

/-- From a position of R31 the loop writes no pixel row below line 143. -/
theorem fbPixel_advance_belowDisplay {s : State} {a b : Nat} (hline : LineAgrees s) (ha : a < fbWidth s.params)
    (hb : b < fbHeight s.params) (hrow : 144 * s.params.scale ≤ b) (n : Nat) :
    fbPixel s.params (advance s n).fb a b = fbPixel s.params s.fb a b := by
  refine (advance_keeps
    (P := fun t => LineAgrees t ∧ t.params = s.params ∧ fbPixel s.params t.fb a b = fbPixel s.params s.fb a b)
    (fun t _ ⟨ht, hp, hpixel⟩ => ?_) ⟨hline, rfl, rfl⟩).2.2
  have hpaid : LineAgrees { t with acc := t.acc - budget t.mode } := ht
  refine ⟨transition_lineAgrees hpaid, (transition_params _).trans hp, ?_⟩
  rw [← hp] at ha hb hrow hpixel ⊢
  exact (fbPixel_transition_belowDisplay hpaid ha hb hrow).trans hpixel

/-! ## Settled obligations -/

/-- Settles O12, by the reset state's fields. -/
theorem resetState : Obligations.ResetState := ⟨rfl, rfl, rfl, rfl, rfl⟩

/-- Settles O13: at reset nothing is counted, listed or requested. -/
theorem resetMeetsInvariant : Obligations.ResetMeetsInvariant where
  acc_below := Nat.lt_of_lt_of_le (by decide : 0 < 80) (budget_ge _)
  storage := ⟨rfl, rfl, rfl, rfl, rfl⟩
  no_requests := rfl

/-- Settles O42, by the fields each path of a TICK leaves. -/
theorem tickFrame : Obligations.TickFrame := by
  intro s t n h
  obtain rfl := exec_tick_eq h
  obtain ⟨hvram, hoam, hmark, hinput, hdraws⟩ := tick_frame s n.toNat
  refine ⟨tick_params s _, hvram, hoam, hmark, hinput, hdraws, tick_regs s _, fun b hb => bit_tick_stat s _ hb, fun x => ?_⟩
  rw [State.vramRead, State.oamRead, hvram, hoam]
  exact ⟨rfl, rfl⟩

/-- Settles O50: the position is kept by every transition, which moves the frame time on by the budget it takes, modulo a
frame. -/
theorem frameTime_holds : Obligations.FrameTime := by
  refine ⟨fun s => frameTime_lt, fun s n hline _ hd => ?_, fun s t => position_of_frameTime,
    fun k => exists_reachable_frameTime⟩
  exact ⟨tick s n.toNat, rfl, tick_lineAgrees _ fun _ => hline, tick_accBelowBudget s _, tick_frameTime hline hd _⟩

/-- Settles O53: an enabled TICK's loop renders lines 0..143 only, and a disabled one renders nothing. -/
theorem rowsBelowDisplayUnwritten : Obligations.RowsBelowDisplayUnwritten := by
  intro s t n a b hline h ha hb hrow
  obtain rfl := exec_tick_eq h
  cases hd : displayOn s with
  | true =>
    rw [(tick_enabled_position hd _).2.2.2]
    exact fbPixel_advance_belowDisplay (s := { s with requests := [] }) hline ha hb hrow _
  | false => rw [tick_disabled_eq hd]

/-- Settles O54, by what every transaction keeps; taking the word off the input and refusing it touch nothing the invariant
speaks of. -/
theorem stepKeepsInvariant : Obligations.StepKeepsInvariant := by
  intro s t hs h
  have hsame : ∀ (u : State) l m r, Inv u → Inv { u with input := l, refusalMark := m, response := r } :=
    fun _ _ _ _ hu => ⟨hu.acc_below, ⟨hu.storage.vram_wf, hu.storage.vram_within, hu.storage.oam_wf,
      hu.storage.oam_within, hu.storage.fb_wf⟩, hu.no_requests⟩
  exact step_keeps (P := Inv) (fun u l => hsame u l u.refusalMark u.response)
    (fun u => hsame u u.input true .refused) (fun _ _ _ _ _ _ _ => exec_inv) h hs

/-- Settles O55: every TICK establishes the agreement, and every other transaction leaves STAT[1:0], the mode and the
accumulator as they were. -/
theorem statModeStaysAgreed : Obligations.StatModeStaysAgreed := by
  refine ⟨fun s t hs h => ?_, fun s t n h => exec_tick_eq h ▸ tick_statModeAgrees s n.toNat⟩
  refine step_keeps (P := StatModeAgrees) (fun _ _ hu => hu) (fun _ hu => hu) (fun w rest i _ _ u v hu he => ?_) h hs
  obtain ⟨n, rfl⟩ | hother := exec_tick_or_other he
  · exact tick_statModeAgrees u n
  · obtain ⟨hmode, hacc, -, -, hstat⟩ := exec_other_frame hother he
    rwa [StatModeAgrees, hmode, hacc, hstat]

/-- Settles O56: R31 holds in every reachable state, and on lines 0..153 it says where each mode stands. -/
theorem reachableLines : Obligations.ReachableLines := by
  refine ⟨fun s hs => ?_, fun s t n hd h => ?_⟩
  · obtain ⟨hly, hvb⟩ := reachable_lineAgrees hs
    refine ⟨hly, by rw [hvb]; omega, ?_⟩
    have hother : (s.mode = .oamScan ∨ s.mode = .vramTransfer ∨ s.mode = .hblank) ↔ ¬ s.mode = .vblank := by
      cases s.mode <;> simp
    rw [hother, hvb]
    omega
  · obtain rfl := exec_tick_eq h
    exact tick_lineAgrees _ (by simp [hd])

end Sys2Proof.Machine
end

section
/-! Memory: the addresses the renderers read, the window in which TICKs render nothing, and the settled obligations of
20_memory.md. -/

namespace Sys2Proof.Machine

/-! ## Addresses of the layers (R130 to R133) -/

/-- A tile-map entry lies in the 32 × 32 bytes from its base. -/
theorem layerMapAddress_range (s : State) (win : Bool) (x y : Nat) :
    0x9800 ≤ layerMapAddress s win x y ∧ layerMapAddress s win x y ≤ 0x9FFF := by
  have hbase : layerBase s win = 0x9C00 ∨ layerBase s win = 0x9800 := ite_eq_or_eq _ _ _
  unfold layerMapAddress mapEntryAddress
  omega

theorem tileAddress_unsigned_range (idx : Byte) : 0x8000 ≤ tileAddress true idx ∧ tileAddress true idx + 15 ≤ 0x8FFF := by
  have hidx := idx.isLt
  simp only [tileAddress, if_true]
  omega

theorem tileAddress_signed_range (idx : Byte) : 0x8800 ≤ tileAddress false idx ∧ tileAddress false idx + 15 ≤ 0x97FF := by
  have hlow := idx.le_toInt
  have hhigh := idx.toInt_lt
  simp only [tileAddress, Bool.false_eq_true, if_false]
  omega

/-- The two planes of a tile row lie in the 16 bytes of their tile (R133). -/
theorem layerTileRowAddress_within_tile (s : State) (win : Bool) (x y : Nat) :
    ∃ idx, tileAddress (unsignedTiles s) idx ≤ layerTileRowAddress s win x y ∧
      layerTileRowAddress s win x y + 1 ≤ tileAddress (unsignedTiles s) idx + 15 := by
  refine ⟨s.vramRead (layerMapAddress s win x y), ?_⟩
  unfold layerTileRowAddress
  omega

/-! ## Addresses of a sprite (R155, R156) -/

/-- The tile row of a visible sprite is one of its rows, flipped or not. -/
theorem spriteRow_lt_height {s : State} {line i : Nat} (h : spriteVisible s line i = true) :
    spriteRow s line i < spriteHeight s := by
  obtain ⟨htop, hbottom⟩ := (spriteVisible_iff s line i).1 h
  unfold spriteRow spriteTop
  split <;> omega

theorem spriteHeight_le (s : State) : spriteHeight s ≤ 16 := by
  obtain ⟨h, -⟩ | ⟨h, -⟩ := spriteHeight_cases s <;> omega

/-- The mask clears bit 0 of the tile index in 16-line mode, so a tile 0xFF there is OAM's own, unmasked (R156). -/
theorem spriteTile_eq_ff {s : State} {i : Nat} (htall : tallSprites s = true) (h : spriteTile s i = 0xFF#8) :
    oamTile s i = 0xFF#8 ∧ s.params.tallSpriteMask = false := by
  cases hmask : s.params.tallSpriteMask with
  | true =>
    have hodd : bit (oamTile s i &&& 0xFE#8) 0 = bit 0xFF#8 0 := by
      simpa only [spriteTile, hmask, htall, Bool.and_self, if_true] using congrArg (bit · 0) h
    simp [bit] at hodd
  | false => exact ⟨by simpa [spriteTile, hmask] using h, rfl⟩

/-- The tile data of a visible sprite, unsigned from 0x8000, ends below 0x9010. -/
theorem spriteRowAddress_range {s : State} {line i : Nat} (h : spriteVisible s line i = true) :
    0x8000 ≤ spriteRowAddress s line i ∧ spriteRowAddress s line i + 1 ≤ 0x900F := by
  have hrow := spriteRow_lt_height h
  have hheight := spriteHeight_le s
  have htile := (spriteTile s i).isLt
  unfold spriteRowAddress
  omega

/-- Only the second half of a 16-line sprite of tile 0xFF reaches 0x9000. -/
theorem spriteRowAddress_past_tiles {s : State} {line i : Nat} (h : spriteVisible s line i = true)
    (hpast : 0x9000 ≤ spriteRowAddress s line i + 1) : tallSprites s = true ∧ spriteTile s i = 0xFF#8 := by
  have hrow := spriteRow_lt_height h
  have htile := (spriteTile s i).isLt
  unfold spriteRowAddress at hpast
  obtain ⟨hheight, htall⟩ | ⟨hheight, -⟩ := spriteHeight_cases s
  · exact ⟨htall, BitVec.eq_of_toNat_eq (show _ = 255 by omega)⟩
  · omega

/-! ## The window without a render (R63, R250) -/

/-- The cycles counted so far pay for no render: the sequencer is past the end of VRAMTransfer of line 143 and the frame time
is before that of line 0 of the next frame, or it is before that of line 0 of this frame. -/
def NoRenderPaid (s : State) : Prop :=
  ((s.mode = .vblank ∨ (s.mode = .hblank ∧ s.regs.ly.toNat = 143)) ∧ frameTime s < 70224 + 252) ∨ frameTime s < 252

/-- At frame time 65460 or later the sequencer has left VRAMTransfer of line 143. -/
theorem mode_of_frameTime_ge {s : State} (hline : LineAgrees s) (hacc : AccBelowBudget s) (h : 65460 ≤ frameTime s) :
    s.mode = .vblank ∨ (s.mode = .hblank ∧ s.regs.ly.toNat = 143) := by
  obtain ⟨-, hvb⟩ := hline
  unfold AccBelowBudget at hacc
  cases hm : s.mode <;>
    simp only [frameTime, hm, modeOffset, budget, reduceCtorEq, true_iff, false_iff, false_or, true_or, false_and, true_and]
      at hvb hacc h ⊢ <;>
    omega

/-- In the window no paid transition is the end of VRAMTransfer. -/
theorem NoRenderPaid.mode_ne {s : State} (h : NoRenderPaid s) (hpays : budget s.mode ≤ s.acc) :
    s.mode ≠ .vramTransfer := by
  intro hm
  simp only [NoRenderPaid, frameTime, hm, budget, modeOffset, reduceCtorEq, false_and, or_self, false_or] at h hpays
  omega

/-- A paid transition stays in the window: it ends HBlank of line 143, a VBlank line, with the wrap after line 153, or OAMScan
of line 0. -/
theorem transition_noRenderPaid {s : State} (hline : LineAgrees s) (h : NoRenderPaid s) (hpays : budget s.mode ≤ s.acc) :
    NoRenderPaid (transition { s with acc := s.acc - budget s.mode }) := by
  rw [transition_with_acc]
  unfold NoRenderPaid frameTime at h ⊢
  obtain ⟨hm, hm', hly⟩ | ⟨hm, hm', hly⟩ | ⟨hm, hl, hm', hly⟩ | ⟨hm, hl, hm', hly⟩ | ⟨hm, hl, hm', hly⟩ |
    ⟨hm, hl, hm', hly⟩ := transition_position hline <;>
    simp only [hm, hm', hly, modeOffset, budget, reduceCtorEq, false_or, false_and, true_or, true_and]
      at h hpays ⊢ <;>
    omega

/-- In the window the loop leaves the framebuffer as it was. -/
theorem advance_fb_of_noRenderPaid {s : State} {n : Nat} (hline : LineAgrees s)
    (h : NoRenderPaid { s with acc := s.acc + n }) : (advance s n).fb = s.fb := by
  refine (advance_keeps (P := fun t => LineAgrees t ∧ NoRenderPaid t ∧ t.fb = s.fb)
    (fun t hpays ⟨ht, hwindow, hfb⟩ => ?_) ⟨hline, h, rfl⟩).2.2
  have hpaid : LineAgrees { t with acc := t.acc - budget t.mode } := ht
  refine ⟨transition_lineAgrees hpaid, transition_noRenderPaid ht hwindow hpays, ?_⟩
  rw [transition_fb, if_neg (hwindow.mode_ne hpays)]
  exact hfb

/-! ## Settled obligations -/

/-- Settles O52: a TICK that starts and ends in the window starts with no render paid for, and no transition of its loop pays
for one. -/
theorem stableFrameWindow : Obligations.StableFrameWindow := by
  intro s t n hline hacc hd hwindow h
  obtain rfl := exec_tick_eq h
  have htime : frameTime { s with acc := s.acc + n.toNat } = frameTime s + n.toNat := by
    have := frameTime_with_acc s (s.acc + n.toNat)
    omega
  have hstart : NoRenderPaid { s with acc := s.acc + n.toNat } := by
    rw [NoRenderPaid, htime]
    exact hwindow.imp (fun ⟨hfrom, hto⟩ => ⟨mode_of_frameTime_ge (s := s) hline hacc hfrom, hto⟩) id
  rw [(tick_enabled_position hd _).2.2.2]
  exact advance_fb_of_noRenderPaid (s := { s with requests := [] }) hline hstart

/-- Settles O28, by the range of each address the renderers form. -/
theorem renderAddressesInRange : Obligations.RenderAddressesInRange := by
  refine ⟨fun s win x y => ?_, fun s line i hvisible => ?_, by decide⟩
  · obtain ⟨hmapLow, hmapHigh⟩ := layerMapAddress_range s win x y
    obtain ⟨idx, hlow, hhigh⟩ := layerTileRowAddress_within_tile s win x y
    refine ⟨hmapLow, hmapHigh, fun hmode => ?_, fun hmode => ?_⟩ <;> rw [hmode] at hlow hhigh
    · have := tileAddress_unsigned_range idx
      omega
    · have := tileAddress_signed_range idx
      omega
  · obtain ⟨hlow, hhigh⟩ := spriteRowAddress_range hvisible
    refine ⟨hlow, hhigh, fun hpast => ?_⟩
    obtain ⟨htall, htile⟩ := spriteRowAddress_past_tiles hvisible hpast
    obtain ⟨hoam, hmask⟩ := spriteTile_eq_ff htall htile
    exact ⟨hoam, htall, hmask⟩

end Sys2Proof.Machine
end

section
/-! Encoding: what a word decodes to, said once field by field, the rows of the opcode table, the refusal mark along a step, and
the settled obligations of 30_encoding.md. -/

namespace Sys2Proof.Machine

/-! ## Transactions by format -/

/-- Every transaction is of one of the five formats, the two kinds of format R taken over all registers (R82 to R88). -/
theorem instr_by_format {P : Instr → Prop} (tick : ∀ n, P (.tick n)) (regWrite : ∀ v r, P (regWriteInstr v r))
    (regRead : ∀ r, P (regReadInstr r)) (fbRead : ∀ x y, P (.fbRead x y)) (vramWrite : ∀ a v, P (.vramWrite a v))
    (oamWrite : ∀ a v, P (.oamWrite a v)) : ∀ i, P i
  | .tick n => tick n
  | .regWriteLcdc v => regWrite v .lcdc
  | .regWriteStat v => regWrite v .stat
  | .regWriteLy v => regWrite v .ly
  | .regWriteLyc v => regWrite v .lyc
  | .regWriteScx v => regWrite v .scx
  | .regWriteScy v => regWrite v .scy
  | .regWriteWx v => regWrite v .wx
  | .regWriteWy v => regWrite v .wy
  | .regWriteBgp v => regWrite v .bgp
  | .regWriteObp0 v => regWrite v .obp0
  | .regWriteObp1 v => regWrite v .obp1
  | .regReadLcdc => regRead .lcdc
  | .regReadStat => regRead .stat
  | .regReadLy => regRead .ly
  | .regReadLyc => regRead .lyc
  | .regReadScx => regRead .scx
  | .regReadScy => regRead .scy
  | .regReadWx => regRead .wx
  | .regReadWy => regRead .wy
  | .regReadBgp => regRead .bgp
  | .regReadObp0 => regRead .obp0
  | .regReadObp1 => regRead .obp1
  | .fbRead x y => fbRead x y
  | .vramWrite a v => vramWrite a v
  | .oamWrite a v => oamWrite a v

@[simp] theorem encode_regWriteInstr (v : Byte) (r : Reg) : encode (regWriteInstr v r) = encodeReg 0x2#4 r v := by
  cases r <;> rfl

@[simp] theorem encode_regReadInstr (r : Reg) : encode (regReadInstr r) = encodeReg 0x3#4 r 0#8 := by
  cases r <;> rfl

@[simp] theorem wf_regWriteInstr (v : Byte) (r : Reg) : (regWriteInstr v r).wf = true := by cases r <;> rfl

@[simp] theorem wf_regReadInstr (r : Reg) : (regReadInstr r).wf = true := by cases r <;> rfl

theorem wf_oamWrite_iff {a v : Byte} : (Instr.oamWrite a v).wf = true ↔ a.toNat ≤ 159 := decide_eq_true_iff

/-! ## Register selects -/

/-- The select codes of R84 are those of the registers. -/
theorem mem_selCodes_iff {sel : Byte} :
    sel ∈ [0x40#8, 0x41#8, 0x42#8, 0x43#8, 0x44#8, 0x45#8, 0x47#8, 0x48#8, 0x49#8, 0x4A#8, 0x4B#8] ↔
      ∃ r, selOf r = sel := by
  constructor
  · intro h
    have hcode : sel ∈ [Reg.lcdc, .stat, .scy, .scx, .ly, .lyc, .bgp, .obp0, .obp1, .wy, .wx].map selOf := h
    obtain ⟨r, -, hr⟩ := List.mem_map.1 hcode
    exact ⟨r, hr⟩
  · rintro ⟨r, rfl⟩
    cases r <;> decide

theorem no_selOf_of_regOfSel {sel : Byte} (h : regOfSel sel = none) : ¬ ∃ r, selOf r = sel := by
  rintro ⟨r, rfl⟩
  simp at h

/-! ## What a word decodes to (R81 to R89) -/

/-- The word has the fields of the transaction (R82 to R87), and zero in the fields its format reserves. -/
inductive DecodesTo (w : Word) : Instr → Prop where
  | tick {n} (hop : opField w = 0x1#4) (hres : reserved27to16 w = 0#12) (hn : cyclesField w = n) : DecodesTo w (.tick n)
  | regWrite {v r} (hop : opField w = 0x2#4) (hres : reserved27to16 w = 0#12) (hsel : selField w = selOf r)
      (hv : valueField w = v) : DecodesTo w (regWriteInstr v r)
  | regRead {r} (hop : opField w = 0x3#4) (hres : reserved27to16 w = 0#12) (hsel : selField w = selOf r)
      (hv : valueField w = 0#8) : DecodesTo w (regReadInstr r)
  | fbRead {x y} (hop : opField w = 0x4#4) (hx : xField w = x) (hy : yField w = y) : DecodesTo w (.fbRead x y)
  | vramWrite {a v} (hop : opField w = 0x5#4) (hres : reserved27to21 w = 0#7) (ha : vramField w = a)
      (hv : valueField w = v) : DecodesTo w (.vramWrite a v)
  | oamWrite {a v} (hop : opField w = 0x6#4) (hres : reserved27to16 w = 0#12) (ha : oamField w = a)
      (hv : valueField w = v) (hoff : a.toNat ≤ 159) : DecodesTo w (.oamWrite a v)

/-- What an answer of the decoder says of the word. -/
def DecodeMeets (w : Word) : Except Reject Instr → Prop
  | .ok i => DecodesTo w i
  | .error _ => ReservedEncoding w

theorem reserved_of_op {w : Word} (h : opField w = 0x0#4 ∨ 0x7#4 ≤ opField w) : ReservedEncoding w := .inl h

theorem reserved_of_bits27to16 {w : Word} (hop : opField w ∈ [0x1#4, 0x2#4, 0x3#4, 0x6#4])
    (h : reserved27to16 w ≠ 0#12) : ReservedEncoding w := .inr (.inl ⟨hop, h⟩)

theorem reserved_of_bits27to21 {w : Word} (hop : opField w = 0x5#4) (h : reserved27to21 w ≠ 0#7) : ReservedEncoding w :=
  .inr (.inr (.inl ⟨hop, h⟩))

theorem reserved_of_sel {w : Word} (hop : opField w ∈ [0x2#4, 0x3#4]) (h : regOfSel (selField w) = none) :
    ReservedEncoding w :=
  .inr (.inr (.inr (.inl ⟨hop, fun hsel => no_selOf_of_regOfSel h (mem_selCodes_iff.1 hsel)⟩)))

theorem reserved_of_readValue {w : Word} (hop : opField w = 0x3#4) (h : valueField w ≠ 0#8) : ReservedEncoding w :=
  .inr (.inr (.inr (.inr (.inl ⟨hop, h⟩))))

theorem reserved_of_oamOffset {w : Word} (hop : opField w = 0x6#4) (h : 160 ≤ (oamField w).toNat) : ReservedEncoding w :=
  .inr (.inr (.inr (.inr (.inr ⟨hop, h⟩))))

theorem decodeTick_meets {w : Word} (hop : opField w = 0x1#4) : DecodeMeets w (decodeTick w) := by
  unfold decodeTick
  split_ifs with hres
  · exact .tick hop hres rfl
  · exact reserved_of_bits27to16 (by simp [hop]) hres

theorem decodeRegWrite_meets {w : Word} (hop : opField w = 0x2#4) : DecodeMeets w (decodeRegWrite w) := by
  unfold decodeRegWrite
  split_ifs with hres
  · split
    next r hsel => exact .regWrite hop hres (selOf_of_regOfSel hsel).symm rfl
    next hsel => exact reserved_of_sel (by simp [hop]) hsel
  · exact reserved_of_bits27to16 (by simp [hop]) hres

theorem decodeRegRead_meets {w : Word} (hop : opField w = 0x3#4) : DecodeMeets w (decodeRegRead w) := by
  unfold decodeRegRead
  split
  next hres =>
    split
    next r hsel =>
      split_ifs with hv
      · exact .regRead hop hres (selOf_of_regOfSel hsel).symm hv
      · exact reserved_of_readValue hop hv
    next hsel => exact reserved_of_sel (by simp [hop]) hsel
  next hres => exact reserved_of_bits27to16 (by simp [hop]) hres

theorem decodeVramWrite_meets {w : Word} (hop : opField w = 0x5#4) : DecodeMeets w (decodeVramWrite w) := by
  unfold decodeVramWrite
  split_ifs with hres
  · exact .vramWrite hop hres rfl rfl
  · exact reserved_of_bits27to21 hop hres

theorem decodeOamWrite_meets {w : Word} (hop : opField w = 0x6#4) : DecodeMeets w (decodeOamWrite w) := by
  unfold decodeOamWrite
  split_ifs with hres hoff
  · exact .oamWrite hop hres rfl rfl hoff
  · exact reserved_of_oamOffset hop (by omega)
  · exact reserved_of_bits27to16 (by simp [hop]) hres

/-- The decoder answers a transaction whose fields the word has, or rejects a reserved encoding. -/
theorem decode_meets (w : Word) : DecodeMeets w (decode w) := by
  unfold decode
  split_ifs with h1 h2 h3 h4 h5 h6
  · exact decodeTick_meets h1
  · exact decodeRegWrite_meets h2
  · exact decodeRegRead_meets h3
  · exact .fbRead h4 rfl rfl
  · exact decodeVramWrite_meets h5
  · exact decodeOamWrite_meets h6
  · exact reserved_of_op (by bv_omega)

/-- The decoder answers a transaction exactly for the words with its fields. -/
theorem decode_eq_ok_iff {w : Word} {i : Instr} : decode w = .ok i ↔ DecodesTo w i := by
  constructor
  · intro h
    have hmeets := decode_meets w
    rwa [h] at hmeets
  · intro h
    cases h with
    | tick hop hres hn => simp [decode, hop, decodeTick, hres, hn]
    | regWrite hop hres hsel hv => simp [decode, hop, decodeRegWrite, hres, hsel, hv]
    | regRead hop hres hsel hv => simp [decode, hop, decodeRegRead, hres, hsel, hv]
    | fbRead hop hx hy => simp [decode, hop, decodeFbRead, hx, hy]
    | vramWrite hop hres ha hv => simp [decode, hop, decodeVramWrite, hres, ha, hv]
    | oamWrite hop hres ha hv hoff => simp [decode, hop, decodeOamWrite, hres, ha, hv, hoff]

/-- A well-formed transaction's word has the transaction's fields. -/
theorem decodesTo_encode {i : Instr} (h : i.wf = true) : DecodesTo (encode i) i := by
  induction i using instr_by_format with
  | tick n => exact .tick (opField_encodeTick n) (reserved_encodeTick n) (cyclesField_encodeTick n)
  | regWrite v r =>
    rw [encode_regWriteInstr]
    exact .regWrite (opField_append _ _ _) (reserved_append _ _ _) (selField_append _ _ _) (valueField_append _ _ _)
  | regRead r =>
    rw [encode_regReadInstr]
    exact .regRead (opField_append _ _ _) (reserved_append _ _ _) (selField_append _ _ _) (valueField_append _ _ _)
  | fbRead x y => exact .fbRead (opField_encodeFbRead x y) (xField_encodeFbRead x y) (yField_encodeFbRead x y)
  | vramWrite a v =>
    exact .vramWrite (opField_encodeVramWrite a v) (reserved_encodeVramWrite a v) (vramField_encodeVramWrite a v)
      (valueField_encodeVramWrite a v)
  | oamWrite a v =>
    exact .oamWrite (opField_append _ _ _) (reserved_append _ _ _) (oamField_append _ _ _) (valueField_append _ _ _)
      (wf_oamWrite_iff.1 h)

/-- A word is determined by the fields of its transaction. -/
theorem DecodesTo.encode_eq {w : Word} {i : Instr} (h : DecodesTo w i) : encode i = w := by
  cases h with
  | tick hop hres hn => rw [word_eq_formatT w, hop, hres, hn]; rfl
  | regWrite hop hres hsel hv => rw [word_eq_formatR w, hop, hres, hsel, hv, encode_regWriteInstr]; rfl
  | regRead hop hres hsel hv => rw [word_eq_formatR w, hop, hres, hsel, hv, encode_regReadInstr]; rfl
  | fbRead hop hx hy => rw [word_eq_formatF w, hop, hx, hy]; rfl
  | vramWrite hop hres ha hv => rw [word_eq_formatM w, hop, hres, ha, hv]; rfl
  | oamWrite hop hres ha hv => rw [word_eq_formatR w, hop, hres, show selField w = _ from ha, hv]; rfl

theorem DecodesTo.wf {w : Word} {i : Instr} (h : DecodesTo w i) : i.wf = true := by
  cases h with
  | regWrite => exact wf_regWriteInstr _ _
  | regRead => exact wf_regReadInstr _
  | oamWrite _ _ _ _ hoff => exact wf_oamWrite_iff.2 hoff
  | _ => rfl

/-- No word with the fields of a transaction is a reserved encoding. -/
theorem DecodesTo.not_reserved {w : Word} {i : Instr} (h : DecodesTo w i) : ¬ ReservedEncoding w := by
  unfold ReservedEncoding
  rw [mem_selCodes_iff]
  cases h with
  | tick hop hres => simp [hop, hres]
  | regWrite hop hres hsel => simp [hop, hres, hsel]
  | regRead hop hres hsel hv => simp [hop, hres, hsel, hv]
  | fbRead hop => simp [hop]
  | vramWrite hop hres => simp [hop, hres]
  | oamWrite hop hres ha hv hoff =>
    have hlt := Nat.lt_succ_of_le hoff
    simp [hop, hres, ha, hlt]

/-- The decoder rejects a word exactly when R89 reserves it. -/
theorem decode_eq_error_iff {w : Word} : (∃ r, decode w = .error r) ↔ ReservedEncoding w := by
  constructor
  · rintro ⟨r, h⟩
    have hmeets := decode_meets w
    rwa [h] at hmeets
  · intro hreserved
    cases h : decode w with
    | ok i => exact absurd hreserved (decode_eq_ok_iff.1 h).not_reserved
    | error r => exact ⟨r, rfl⟩

/-! ## The opcode table (R88) -/

theorem append_eq_append_iff {m n : Nat} {a c : BitVec m} {b d : BitVec n} : a ++ b = c ++ d ↔ a = c ∧ b = d := by
  constructor
  · intro h
    exact ⟨by rw [← extract_left a b, h, extract_left], by rw [← extract_right a b, h, extract_right]⟩
  · rintro ⟨rfl, rfl⟩
    rfl

/-- A mask put together as the word is compares part by part. -/
theorem append_and_append_eq_iff {m n : Nat} {a x c : BitVec m} {b y d : BitVec n} :
    (a ++ b) &&& (x ++ y) = c ++ d ↔ a &&& x = c ∧ b &&& y = d := by
  rw [BitVec.and_append, append_eq_append_iff]

/-- The rows of formats T and O. -/
theorem matches_formatTRow_iff {w : Word} {op : BitVec 4} :
    w &&& 0xFFFF0000#32 = op ++ 0#12 ++ 0#16 ↔ opField w = op ∧ reserved27to16 w = 0#12 := by
  conv_lhs => rw [word_eq_formatT w, show 0xFFFF0000#32 = BitVec.allOnes 4 ++ BitVec.allOnes 12 ++ 0#16 from rfl]
  rw [append_and_append_eq_iff, append_and_append_eq_iff]
  simp only [BitVec.and_allOnes, BitVec.and_zero, and_true]

/-- The rows of REG_WRITE. -/
theorem matches_regWriteRow_iff {w : Word} {op : BitVec 4} {r : Reg} :
    w &&& 0xFFFFFF00#32 = encodeReg op r 0#8 ↔
      opField w = op ∧ reserved27to16 w = 0#12 ∧ selField w = selOf r := by
  conv_lhs => rw [word_eq_formatR w,
    show 0xFFFFFF00#32 = BitVec.allOnes 4 ++ BitVec.allOnes 12 ++ BitVec.allOnes 8 ++ 0#8 from rfl]
  rw [encodeReg, append_and_append_eq_iff, append_and_append_eq_iff, append_and_append_eq_iff]
  simp only [BitVec.and_allOnes, BitVec.and_zero, and_true, and_assoc]

/-- The rows of REG_READ, which fix the whole word. -/
theorem matches_regReadRow_iff {w : Word} {op : BitVec 4} {r : Reg} :
    w &&& 0xFFFFFFFF#32 = encodeReg op r 0#8 ↔
      opField w = op ∧ reserved27to16 w = 0#12 ∧ selField w = selOf r ∧ valueField w = 0#8 := by
  conv_lhs => rw [word_eq_formatR w, show 0xFFFFFFFF#32 = BitVec.allOnes 32 from rfl]
  rw [BitVec.and_allOnes, encodeReg, append_eq_append_iff, append_eq_append_iff, append_eq_append_iff, and_assoc, and_assoc]

/-- The row of format F. -/
theorem matches_formatFRow_iff {w : Word} {op : BitVec 4} :
    w &&& 0xF0000000#32 = op ++ 0#14 ++ 0#14 ↔ opField w = op := by
  conv_lhs => rw [word_eq_formatF w, show 0xF0000000#32 = BitVec.allOnes 4 ++ 0#14 ++ 0#14 from rfl]
  rw [append_and_append_eq_iff, append_and_append_eq_iff]
  simp only [BitVec.and_allOnes, BitVec.and_zero, and_true]

/-- The row of format M. -/
theorem matches_formatMRow_iff {w : Word} {op : BitVec 4} :
    w &&& 0xFFE00000#32 = op ++ 0#7 ++ 0#13 ++ 0#8 ↔ opField w = op ∧ reserved27to21 w = 0#7 := by
  conv_lhs => rw [word_eq_formatM w, show 0xFFE00000#32 = BitVec.allOnes 4 ++ BitVec.allOnes 7 ++ 0#13 ++ 0#8 from rfl]
  rw [append_and_append_eq_iff, append_and_append_eq_iff, append_and_append_eq_iff]
  simp only [BitVec.and_allOnes, BitVec.and_zero, and_true]

/-- The registers in the order of the table's rows. -/
def tableRegs : List Reg := [.lcdc, .stat, .ly, .lyc, .scx, .scy, .wx, .wy, .bgp, .obp0, .obp1]

theorem mem_tableRegs (r : Reg) : r ∈ tableRegs := by cases r <;> decide

/-- The table written from the encodings: one row of TICK, one of REG_WRITE and one of REG_READ per register, and one of each
other transaction. -/
theorem opcodeRows_eq :
    opcodeRows = [(0x1#4 ++ 0#12 ++ 0#16, 0xFFFF0000#32)] ++
      tableRegs.map (fun r => (encodeReg 0x2#4 r 0#8, 0xFFFFFF00#32)) ++
      tableRegs.map (fun r => (encodeReg 0x3#4 r 0#8, 0xFFFFFFFF#32)) ++
      [(0x4#4 ++ 0#14 ++ 0#14, 0xF0000000#32), (0x5#4 ++ 0#7 ++ 0#13 ++ 0#8, 0xFFE00000#32),
        (0x6#4 ++ 0#12 ++ 0#16, 0xFFFF0000#32)] := rfl

/-- A word that matches a row has the fields the row fixes. -/
theorem exists_matching_row_iff {w : Word} :
    (∃ r ∈ opcodeRows, w &&& r.2 = r.1) ↔
      (opField w = 0x1#4 ∧ reserved27to16 w = 0#12) ∨
      (∃ r, opField w = 0x2#4 ∧ reserved27to16 w = 0#12 ∧ selField w = selOf r) ∨
      (∃ r, opField w = 0x3#4 ∧ reserved27to16 w = 0#12 ∧ selField w = selOf r ∧ valueField w = 0#8) ∨
      opField w = 0x4#4 ∨
      (opField w = 0x5#4 ∧ reserved27to21 w = 0#7) ∨
      (opField w = 0x6#4 ∧ reserved27to16 w = 0#12) := by
  simp only [opcodeRows_eq, List.mem_append, List.mem_map, List.mem_cons, List.not_mem_nil, or_false, mem_tableRegs, true_and,
    or_and_right, exists_or, exists_eq_left, exists_exists_eq_and, matches_formatTRow_iff, matches_regWriteRow_iff,
    matches_regReadRow_iff, matches_formatFRow_iff, matches_formatMRow_iff, or_assoc]

/-- A word decodes exactly when it matches a row and meets the constraint on OAM offsets. -/
theorem decodes_iff_matches_row {w : Word} :
    (∃ i, decode w = .ok i) ↔
      (∃ r ∈ opcodeRows, w &&& r.2 = r.1) ∧ (opField w = 0x6#4 → (oamField w).toNat ≤ 159) := by
  simp only [decode_eq_ok_iff, exists_matching_row_iff]
  constructor
  · rintro ⟨i, h⟩
    cases h with
    | tick hop hres => simp [hop, hres]
    | regWrite hop hres hsel => exact ⟨.inr (.inl ⟨_, hop, hres, hsel⟩), by simp [hop]⟩
    | regRead hop hres hsel hv => exact ⟨.inr (.inr (.inl ⟨_, hop, hres, hsel, hv⟩)), by simp [hop]⟩
    | fbRead hop => simp [hop]
    | vramWrite hop hres => simp [hop, hres]
    | oamWrite hop hres ha _ hoff => simp [hop, hres, ha, hoff]
  · rintro ⟨⟨hop, hres⟩ | ⟨r, hop, hres, hsel⟩ | ⟨r, hop, hres, hsel, hv⟩ | hop | ⟨hop, hres⟩ | ⟨hop, hres⟩, hoff⟩
    · exact ⟨_, .tick hop hres rfl⟩
    · exact ⟨_, .regWrite hop hres hsel rfl⟩
    · exact ⟨_, .regRead hop hres hsel hv⟩
    · exact ⟨_, .fbRead hop rfl rfl⟩
    · exact ⟨_, .vramWrite hop hres rfl rfl⟩
    · exact ⟨_, .oamWrite hop hres rfl rfl (hoff hop)⟩

/-- Two rows of the table differ in a bit that both masks keep. -/
theorem opcodeRows_pairwise : opcodeRows.Pairwise fun r q => r.1 &&& q.2 ≠ q.1 &&& r.2 := by decide

/-- A word that matches two rows agrees with both in the bits that both masks keep. -/
theorem rows_agree_of_matches {w : Word} {r q : Word × Word} (hr : w &&& r.2 = r.1) (hq : w &&& q.2 = q.1) :
    r.1 &&& q.2 = q.1 &&& r.2 := by
  rw [← hr, ← hq, BitVec.and_assoc, BitVec.and_assoc, BitVec.and_comm r.2]

/-- A word matches at most one row. -/
theorem matching_row_unique {w : Word} {j k : Nat} {r q : Word × Word} (hj : opcodeRows[j]? = some r)
    (hk : opcodeRows[k]? = some q) (hr : w &&& r.2 = r.1) (hq : w &&& q.2 = q.1) : j = k := by
  obtain ⟨hjlt, rfl⟩ := List.getElem?_eq_some_iff.1 hj
  obtain ⟨hklt, rfl⟩ := List.getElem?_eq_some_iff.1 hk
  have hdiffer := List.pairwise_iff_getElem.1 opcodeRows_pairwise
  rcases Nat.lt_trichotomy j k with hlt | heq | hgt
  · exact absurd (rows_agree_of_matches hr hq) (hdiffer j k hjlt hklt hlt)
  · exact heq
  · exact absurd (rows_agree_of_matches hq hr) (hdiffer k j hklt hjlt hgt)

/-! ## The assembler (R92) -/

/-- Lines without an error assemble to the words of their transactions. -/
theorem asmSequence_map_some (l : List Instr) : asmSequence (l.map some) = some (l.map encode) := by
  have hall : (l.map some).mapM id = some l := List.mapM_map.trans (List.mapM_pure.trans (by simp))
  rw [asmSequence, hall]
  rfl

/-- The operands of the TICKs that `ticks N` expands to. -/
def ticksOperands (n : Nat) : List (BitVec 16) :=
  List.replicate (n / 65535) 65535#16 ++ [BitVec.ofNat 16 (n % 65535)]

theorem assemble_ticks (n : Nat) : assemble (.ticks n) = some ((ticksOperands n).map fun k => encode (.tick k)) := by
  have hlast : n % 65535 ≤ 65535 := by omega
  have hlines : List.replicate (n / 65535) (asmTick 65535) ++ [asmTick (n % 65535)] =
      ((ticksOperands n).map .tick).map some := by
    simp [ticksOperands, asmTick, hlast]
  rw [assemble, hlines, asmSequence_map_some, List.map_map]
  rfl

theorem sum_ticksOperands (n : Nat) : ((ticksOperands n).map tickCycles).sum = n := by
  have hdiv := Nat.div_add_mod n 65535
  simp only [ticksOperands, List.map_append, List.map_replicate, tickCycles, BitVec.toNat_ofNat, List.map_cons, List.map_nil,
    List.sum_append, List.sum_replicate, smul_eq_mul, List.sum_cons, List.sum_nil]
  omega

/-! ## The refusal mark (R90) -/

/-- A well-formed transaction leaves the refusal mark as it was. -/
theorem exec_refusalMark {i : Instr} {s t : State} (hwf : i.wf = true) (h : exec i s = .next t) :
    t.refusalMark = s.refusalMark := by
  cases i with
  | tick n => obtain rfl := exec_tick_eq h; exact (tick_frame s n.toNat).2.2.1
  | fbRead x y => cases h; split <;> rfl
  | oamWrite a v => cases h; rw [if_pos (show oamAddress a ≤ 159 from wf_oamWrite_iff.1 hwf)]; rfl
  | _ => cases h; rfl

/-- The transaction of a word leaves the refusal mark as it was. -/
theorem exec_decoded_refusalMark {w : Word} {i : Instr} {s t : State} (hdecode : decode w = .ok i)
    (h : exec i s = .next t) : t.refusalMark = s.refusalMark :=
  exec_refusalMark (decode_eq_ok_iff.1 hdecode).wf h

/-- A step refuses a reserved word (R90). -/
theorem step_of_reserved {s : State} {w : Word} {rest : List Word} (hinput : s.input = w :: rest)
    (h : ReservedEncoding w) : step s = .next (State.refuseWord { s with input := rest }) := by
  obtain ⟨r, hdecode⟩ := decode_eq_error_iff.2 h
  simp only [step, hinput, hdecode]

/-! ## Settled obligations -/

/-- Settles O1: the fields of a transaction's word are the transaction's, and the decoder reads the fields. -/
theorem decodeOfEncode : Obligations.DecodeOfEncode := fun _ h => decode_eq_ok_iff.2 (decodesTo_encode h)

/-- Settles O2: a word is put together from the fields that the decoder read and from those it requires to be 0. -/
theorem encodeOfDecode : Obligations.EncodeOfDecode := fun _ _ h =>
  have hfields := decode_eq_ok_iff.1 h
  ⟨hfields.encode_eq, hfields.wf⟩

/-- Settles O3: the rows fix the fields that the decoder checks, and any two rows differ in a bit that both fix. -/
theorem decoderAcceptsOpcodeTable : Obligations.DecoderAcceptsOpcodeTable :=
  ⟨fun _ => decodes_iff_matches_row, rfl, fun _ _ _ _ _ hj hk hr hq => Fin.ext (matching_row_unique hj hk hr hq)⟩

/-- Settles O4: a rejected word is reserved by the check that rejects it, and no reserved word has a transaction's fields. -/
theorem decoderRejectsReserved : Obligations.DecoderRejectsReserved := fun _ => decode_eq_error_iff

/-- Settles O6, by the quotient and the remainder of N by 65535. -/
theorem pseudoTicksAddUp : Obligations.PseudoTicksAddUp :=
  ⟨fun n => ⟨ticksOperands n, assemble_ticks n, sum_ticksOperands n⟩, rfl, rfl⟩

/-- Settles O8: a decoded transaction keeps the mark, and a refusal sets it. -/
theorem reservedWordIsRefused : Obligations.ReservedWordIsRefused := by
  refine ⟨fun s w rest hinput h => step_of_reserved hinput h, fun s t h hmark => ?_⟩
  exact step_keeps (P := fun u => u.refusalMark = true) (fun _ _ hu => hu) (fun _ _ => rfl)
    (fun _ _ _ _ hdecode _ _ hu hexec => (exec_decoded_refusalMark hdecode hexec).trans hu) h hmark

/-- Settles O9: of the three things a step can do, only the refusal sets the mark, and the decoder refuses reserved words
only. -/
theorem markOnlyFromReservedWord : Obligations.MarkOnlyFromReservedWord := by
  intro s t h hclear hset
  obtain ⟨-, rfl⟩ | ⟨w, rest, i, -, hdecode, hexec⟩ | ⟨w, rest, r, hinput, hdecode, -⟩ := step_cases h
  · simp [hclear] at hset
  · rw [exec_decoded_refusalMark hdecode hexec] at hset
    simp [hclear] at hset
  · exact ⟨w, rest, hinput, decode_eq_error_iff.1 ⟨r, hdecode⟩⟩

/-- Settles O5, by running the decoder. -/
theorem sampleWordsDecode : Obligations.SampleWordsDecode := ⟨rfl, rfl, rfl, rfl, rfl, rfl, rfl, rfl, rfl, rfl⟩

end Sys2Proof.Machine
end

section
/-! Mode state machine: the rows of the transition table, the loop resumed after a TICK, the VBlank requests of a frame, the
TICK that pays for one transition, and the settled obligations of 40_mode_state_machine.md. -/

namespace Sys2Proof.Machine

/-! ## The rows of the transition table (R102, R103, R107) -/

theorem transition_of_oamScan {s : State} (hm : s.mode = .oamScan) : transition s = { s with mode := .vramTransfer } := by
  simp only [transition, hm]

theorem transition_of_vramTransfer {s : State} (hm : s.mode = .vramTransfer) :
    transition s = { renderLine s with mode := .hblank }.raiseIf (ieHblank s) .lcdStat := by
  simp only [transition, hm]

theorem transition_of_hblank_last {s : State} (hm : s.mode = .hblank) (hly : s.regs.ly + 1#8 = 144#8) :
    transition s =
      ({ s.setReg .ly (s.regs.ly + 1#8) with mode := .vblank }.raise .vblank).raiseIf (ieVblank s) .lcdStat := by
  simp only [transition, hm, if_pos hly]

theorem transition_of_hblank {s : State} (hm : s.mode = .hblank) (hly : s.regs.ly + 1#8 ≠ 144#8) :
    transition s = { s.setReg .ly (s.regs.ly + 1#8) with mode := .oamScan }.raiseIf (ieOam s) .lcdStat := by
  simp only [transition, hm, if_neg hly]

theorem transition_of_vblank_wrap {s : State} (hm : s.mode = .vblank) (hly : 153 < (s.regs.ly + 1#8).toNat) :
    transition s = { s.setReg .ly 0#8 with mode := .oamScan }.raiseIf (ieOam s) .lcdStat := by
  simp only [transition, hm, if_pos hly]

theorem transition_of_vblank {s : State} (hm : s.mode = .vblank) (hly : ¬ 153 < (s.regs.ly + 1#8).toNat) :
    transition s = s.setReg .ly (s.regs.ly + 1#8) := by
  simp only [transition, hm, if_neg hly]

/-! ## The loop resumed after a TICK (R101, R110) -/

/-- The state with another STAT and another response, and with earlier requests before its own: what the loop would have
found, had the TICK before it not ended. -/
def State.resumed (s : State) (stat : Byte) (earlier : List Interrupt) (r : Response) : State :=
  { s with regs := { s.regs with stat := stat }, requests := earlier ++ s.requests, response := r }

@[simp] theorem State.resumed_mode (s : State) (stat : Byte) (q : List Interrupt) (r : Response) :
    (s.resumed stat q r).mode = s.mode := rfl
@[simp] theorem State.resumed_acc (s : State) (stat : Byte) (q : List Interrupt) (r : Response) :
    (s.resumed stat q r).acc = s.acc := rfl
@[simp] theorem State.resumed_ly (s : State) (stat : Byte) (q : List Interrupt) (r : Response) :
    (s.resumed stat q r).regs.ly = s.regs.ly := rfl
@[simp] theorem State.resumed_requests (s : State) (stat : Byte) (q : List Interrupt) (r : Response) :
    (s.resumed stat q r).requests = q ++ s.requests := rfl

theorem State.raiseIf_resumed (s : State) (stat : Byte) (q : List Interrupt) (r : Response) (b : Bool) (k : Interrupt) :
    (s.resumed stat q r).raiseIf b k = (s.raiseIf b k).resumed stat q r := by
  cases b <;> simp [State.raiseIf, State.raise, State.resumed]

/-- STAT[7:3] is the state's own. -/
def KeepsEnables (stat : Byte) (s : State) : Prop := ∀ b, 3 ≤ b → bit stat b = bit s.regs.stat b

/-- A transition reads nothing of STAT but the enables, and neither the earlier requests nor the response. -/
theorem transition_resumed {s : State} {stat : Byte} (h : KeepsEnables stat s) (q : List Interrupt) (r : Response) :
    transition (s.resumed stat q r) = (transition s).resumed stat q r := by
  have hhblank : ieHblank (s.resumed stat q r) = ieHblank s := h 3 (by decide)
  have hvblank : ieVblank (s.resumed stat q r) = ieVblank s := h 4 (by decide)
  have hoam : ieOam (s.resumed stat q r) = ieOam s := h 5 (by decide)
  cases hm : s.mode with
  | oamScan =>
    rw [transition_of_oamScan hm, transition_of_oamScan (s := s.resumed stat q r) hm]
    rfl
  | vramTransfer =>
    rw [transition_of_vramTransfer hm, transition_of_vramTransfer (s := s.resumed stat q r) hm, hhblank]
    exact State.raiseIf_resumed { renderLine s with mode := .hblank } stat q r _ _
  | hblank =>
    by_cases hly : s.regs.ly + 1#8 = 144#8
    · rw [transition_of_hblank_last hm hly, transition_of_hblank_last (s := s.resumed stat q r) hm hly, hvblank,
        ← State.raiseIf_resumed]
      exact congrArg (State.raiseIf · _ _)
        (State.raiseIf_resumed { s.setReg .ly (s.regs.ly + 1#8) with mode := .vblank } stat q r true .vblank)
    · rw [transition_of_hblank hm hly, transition_of_hblank (s := s.resumed stat q r) hm hly, hoam]
      exact State.raiseIf_resumed { s.setReg .ly (s.regs.ly + 1#8) with mode := .oamScan } stat q r _ _
  | vblank =>
    by_cases hly : 153 < (s.regs.ly + 1#8).toNat
    · rw [transition_of_vblank_wrap hm hly, transition_of_vblank_wrap (s := s.resumed stat q r) hm hly, hoam]
      exact State.raiseIf_resumed { s.setReg .ly 0#8 with mode := .oamScan } stat q r _ _
    · rw [transition_of_vblank hm hly, transition_of_vblank (s := s.resumed stat q r) hm hly]
      rfl

/-- A paid transition keeps STAT, so with it the agreement of the enables. -/
theorem KeepsEnables.transition {s : State} {stat : Byte} (h : KeepsEnables stat s) (c : Nat) :
    KeepsEnables stat (transition { s with acc := c }) := by
  rwa [KeepsEnables, transition_regs]

/-- A TICK keeps the enables. -/
theorem keepsEnables_tick (s : State) (n : Nat) : KeepsEnables s.regs.stat (tick s n) := fun _ hb =>
  (bit_tick_stat s n hb).symm

theorem runSequencer_resumed {s : State} {stat : Byte} (h : KeepsEnables stat s) (q : List Interrupt) (r : Response)
    (n : Nat) : runSequencer n (s.resumed stat q r) = (runSequencer n s).resumed stat q r := by
  induction n generalizing s with
  | zero => rfl
  | succ n ih =>
    rw [runSequencer_succ, runSequencer_succ, State.resumed_mode, State.resumed_acc]
    split
    · rw [← ih (h.transition _), ← transition_resumed (s := { s with acc := s.acc - budget s.mode }) h]
      rfl
    · rfl

/-- The loop resumed does what it does on its own. -/
theorem advance_resumed {s : State} {stat : Byte} (h : KeepsEnables stat s) (q : List Interrupt) (r : Response) (n : Nat) :
    advance (s.resumed stat q r) n = (advance s n).resumed stat q r := by
  rw [advance_eq, advance_eq]
  exact runSequencer_resumed (s := { s with acc := s.acc + n }) h q r _

/-- A TICK ends in the state of its loop, but for STAT[2:0], the request list and the response. -/
theorem advance_eq_tick_resumed {s : State} (hd : displayOn s = true) (n : Nat) :
    advance { s with requests := [] } n =
      (tick s n).resumed s.regs.stat (advance { s with requests := [] } n).requests s.response := by
  have hresponse := advance_response { s with requests := [] } n
  have hstat : (advance { s with requests := [] } n).regs.stat = s.regs.stat := by rw [advance_regs]
  rw [tick_enabled_eq hd n _ rfl]
  generalize advance { s with requests := [] } n = a at hresponse hstat ⊢
  simp only [State.resumed, List.append_nil]
  rw [← hstat, ← hresponse]

/-- Cycles given to a second TICK go to the loop of the first, resumed. -/
theorem advance_add_eq_resumed {s : State} (hd : displayOn s = true) (n m : Nat) :
    advance { s with requests := [] } (n + m) =
      (advance { tick s n with requests := [] } m).resumed s.regs.stat
        (advance { s with requests := [] } n).requests s.response := by
  rw [← advance_advance]
  calc advance (advance { s with requests := [] } n) m
    _ = advance ((tick s n).resumed s.regs.stat (advance { s with requests := [] } n).requests s.response) m :=
      congrArg (advance · m) (advance_eq_tick_resumed hd n)
    _ = _ := advance_resumed (keepsEnables_tick s n) _ _ m

/-! ## The requests of a list of TICKs -/

/-- A second TICK's transition requests follow the first's, as if one TICK had the cycles of both. -/
theorem advance_add_requests {s : State} (hd : displayOn s = true) (n m : Nat) :
    (advance { s with requests := [] } (n + m)).requests =
      (advance { s with requests := [] } n).requests ++ (advance { tick s n with requests := [] } m).requests := by
  rw [advance_add_eq_resumed hd, State.resumed_requests]

theorem ticksTransitionRequests_eq {s : State} (hd : displayOn s = true) (n : BitVec 16) (ns : List (BitVec 16)) :
    ticksTransitionRequests s (n :: ns) =
      (advance { s with requests := [] } ((n :: ns).map tickCycles).sum).requests := by
  induction ns generalizing s n with
  | nil => simp [ticksTransitionRequests, transitionRequests]
  | cons m ns ih =>
    rw [ticksTransitionRequests, ih (by rwa [displayOn_tick]), List.map_cons (l := m :: ns), List.sum_cons,
      advance_add_requests hd]
    rfl

/-! ## The state after a list of TICKs -/

/-- The same state but for the last response. -/
def SameButResponse (t u : State) : Prop := t = { u with response := t.response }

theorem SameButResponse.refl (t : State) : SameButResponse t t := rfl

theorem SameButResponse.trans {t u v : State} (htu : SameButResponse t u) (huv : SameButResponse u v) :
    SameButResponse t v := by
  unfold SameButResponse at *
  rw [huv] at htu
  exact htu

theorem SameButResponse.symm {t u : State} (h : SameButResponse t u) : SameButResponse u t := by
  unfold SameButResponse at *
  rw [h]

/-- STAT is its three fields (R71). -/
theorem stat_ext {st st' : Byte} (hmode : statMode st = statMode st')
    (hcoincidence : statCoincidence st = statCoincidence st') (henables : ∀ b, 3 ≤ b → bit st b = bit st' b) : st = st' := by
  refine byte_ext fun b _ => ?_
  obtain hb | rfl | hb : b < 2 ∨ b = 2 ∨ 3 ≤ b := by omega
  · have hbit := congrArg (BitVec.getLsbD · b) hmode
    simpa [statMode, bit, hb] using hbit
  · exact hcoincidence
  · exact henables b hb

/-- The end of a TICK writes all of STAT[2:0] (R104, R106). -/
theorem tickStat_congr {st st' : Byte} (h : ∀ b, 3 ≤ b → bit st b = bit st' b) (c : BitVec 2) (e : Bool) :
    withCoincidence (withStatMode st c) e = withCoincidence (withStatMode st' c) e := by
  refine stat_ext (by simp) (by simp) fun b hb => ?_
  rw [bit_withCoincidence _ _ (by omega), bit_withCoincidence _ _ (by omega), bit_withStatMode _ _ (by omega),
    bit_withStatMode _ _ (by omega), h b hb]

/-- Two TICKs leave what one TICK of both their cycles leaves. -/
theorem tick_tick {s : State} (hd : displayOn s = true) (n m : Nat) :
    SameButResponse (tick (tick s n) m) (tick s (n + m)) := by
  have hstat : (advance { tick s n with requests := [] } m).regs.stat = (tick s n).regs.stat := by rw [advance_regs]
  have hkeeps : ∀ b, 3 ≤ b → bit (tick s n).regs.stat b = bit s.regs.stat b := fun b hb => bit_tick_stat s n hb
  rw [SameButResponse, tick_enabled_eq hd (n + m) _ rfl, advance_add_eq_resumed hd,
    tick_enabled_eq ((displayOn_tick s n).trans hd) m _ rfl]
  simp only [State.resumed, hstat, tickStat_congr hkeeps]

theorem ticks_nil (s : State) : ticks s [] = s := rfl

theorem ticks_cons (s : State) (n : BitVec 16) (ns : List (BitVec 16)) :
    ticks s (n :: ns) = ticks (tick s (tickCycles n)) ns := rfl

/-- A nonempty list of TICKs leaves what one TICK of all its cycles leaves. -/
theorem ticks_eq_tick {s : State} (hd : displayOn s = true) (n : BitVec 16) (ns : List (BitVec 16)) :
    SameButResponse (ticks s (n :: ns)) (tick s ((n :: ns).map tickCycles).sum) := by
  induction ns generalizing s n with
  | nil =>
    rw [ticks_cons, ticks_nil, List.map_singleton, List.sum_singleton]
    exact .refl _
  | cons m ns ih =>
    rw [ticks_cons, List.map_cons (l := m :: ns), List.sum_cons]
    exact (ih ((displayOn_tick s _).trans hd) m).trans (tick_tick hd _ _)

/-! ## The transitions of a list of TICKs -/

/-- The transitions that the accumulator and `n` cycles pay for, in order. -/
def transitionsPaid (s : State) (n : Nat) : List (Mode × Byte) :=
  transitionsTaken (sequencerFuel (s.acc + n)) { s with acc := s.acc + n }

theorem transitionsTaken_succ (n : Nat) (s : State) :
    transitionsTaken (n + 1) s =
      if budget s.mode ≤ s.acc then
        (s.mode, s.regs.ly) :: transitionsTaken n (transition { s with acc := s.acc - budget s.mode })
      else [] := rfl

/-- With the accumulator below the budget no transition is taken. -/
theorem transitionsTaken_of_lt (n : Nat) {s : State} (h : s.acc < budget s.mode) : transitionsTaken n s = [] := by
  cases n with
  | zero => rfl
  | succ n => rw [transitionsTaken_succ, if_neg (by omega)]

/-- More fuel than needed takes no more transitions. -/
theorem transitionsTaken_fuel {n m : Nat} {s : State} (hn : s.acc / 80 ≤ n) (hm : s.acc / 80 ≤ m) :
    transitionsTaken n s = transitionsTaken m s := by
  have hbudget := budget_ge s.mode
  induction n generalizing s m with
  | zero => rw [transitionsTaken_of_lt 0 (by omega), transitionsTaken_of_lt m (by omega)]
  | succ n ih =>
    by_cases hb : budget s.mode ≤ s.acc
    · obtain ⟨m, rfl⟩ : ∃ m', m = m' + 1 := ⟨m - 1, by omega⟩
      rw [transitionsTaken_succ, transitionsTaken_succ, if_pos hb, if_pos hb]
      rw [ih (m := m) (by rw [transition_acc]; dsimp only; omega) (by rw [transition_acc]; dsimp only; omega) (budget_ge _)]
    · rw [transitionsTaken_of_lt _ (by omega), transitionsTaken_of_lt _ (by omega)]

/-- Transitions depend on neither STAT[2:0], nor earlier requests, nor the response. -/
theorem transitionsTaken_resumed {s : State} {stat : Byte} (h : KeepsEnables stat s) (q : List Interrupt) (r : Response)
    (n : Nat) : transitionsTaken n (s.resumed stat q r) = transitionsTaken n s := by
  induction n generalizing s with
  | zero => rfl
  | succ n ih =>
    have hrest := ih (h.transition (s.acc - budget s.mode))
    rw [← transition_resumed (s := { s with acc := s.acc - budget s.mode }) h] at hrest
    rw [transitionsTaken_succ, transitionsTaken_succ, ← hrest]
    rfl

/-- A state that pays for its mode takes that transition first; further cycles come after it. -/
theorem transitionsPaid_pays {s : State} (n : Nat) (h : budget s.mode ≤ s.acc) :
    transitionsPaid s n =
      (s.mode, s.regs.ly) :: transitionsPaid (transition { s with acc := s.acc - budget s.mode }) n := by
  have hbudget := budget_ge s.mode
  obtain ⟨k, hk⟩ : ∃ k, sequencerFuel (s.acc + n) = k + 1 :=
    ⟨sequencerFuel (s.acc + n) - 1, by unfold sequencerFuel; omega⟩
  have hacc : s.acc + n - budget s.mode = s.acc - budget s.mode + n := by omega
  rw [transitionsPaid, hk, transitionsTaken_succ, if_pos (by dsimp only; omega), transitionsPaid]
  unfold sequencerFuel at hk ⊢
  simp only [transition_with_acc, hacc]
  rw [transitionsTaken_fuel (n := k) (m := (s.acc - budget s.mode + n) / 80) (by dsimp only; omega) (le_refl _)]

/-- The transitions of the loop, then those of further cycles from its end, are those of all the cycles. -/
theorem transitionsTaken_append (k n : Nat) (s : State) :
    transitionsTaken k s ++ transitionsPaid (runSequencer k s) n = transitionsPaid s n := by
  induction k generalizing s with
  | zero => rfl
  | succ k ih =>
    rw [transitionsTaken_succ, runSequencer_succ]
    split_ifs with hb
    · rw [List.cons_append, ih, transitionsPaid_pays n hb]
    · rfl

theorem transitionsPaid_append (s : State) (n m : Nat) :
    transitionsPaid s n ++ transitionsPaid (advance s n) m = transitionsPaid s (n + m) := by
  rw [advance_eq, transitionsPaid, transitionsTaken_append]
  simp only [transitionsPaid, Nat.add_assoc]

theorem transitionsPaid_resumed {s : State} {stat : Byte} (h : KeepsEnables stat s) (q : List Interrupt) (r : Response)
    (n : Nat) : transitionsPaid (s.resumed stat q r) n = transitionsPaid s n :=
  transitionsTaken_resumed (s := { s with acc := s.acc + n }) h q r _

/-- A second TICK's transitions follow the first's, as if one TICK had the cycles of both. -/
theorem transitionsPaid_add {s : State} (hd : displayOn s = true) (n m : Nat) :
    transitionsPaid s (n + m) = transitionsPaid s n ++ transitionsPaid (tick s n) m := by
  have hstart (k) : transitionsPaid s k = transitionsPaid { s with requests := [] } k := by
    simpa [State.resumed] using
      transitionsPaid_resumed (s := { s with requests := [] }) (fun _ _ => rfl) s.requests s.response k
  have hend := transitionsPaid_resumed (keepsEnables_tick s n) (advance { s with requests := [] } n).requests s.response m
  rw [← advance_eq_tick_resumed hd] at hend
  rw [hstart, hstart, ← hend, transitionsPaid_append]

theorem ticksTransitions_eq {s : State} (hd : displayOn s = true) (n : BitVec 16) (ns : List (BitVec 16)) :
    ticksTransitions s (n :: ns) = transitionsPaid s ((n :: ns).map tickCycles).sum := by
  induction ns generalizing s n with
  | nil => simp [ticksTransitions, transitionsPaid]
  | cons m ns ih =>
    rw [ticksTransitions, ih ((displayOn_tick s _).trans hd), List.map_cons (l := m :: ns), List.sum_cons,
      transitionsPaid_add hd]
    rfl

/-! ## The response of a TICK -/

theorem coincidenceRequests_eq (s : State) :
    coincidenceRequests s = requestIf (s.regs.ly == s.regs.lyc && ieLyc s) .lcdStat := by
  simp [coincidenceRequests, requestIf]

/-- The response of an enabled TICK: the requests of its transitions, then its coincidence request (R106, R221). -/
theorem tick_response_of_enabled {s : State} (hd : displayOn s = true) (n : Nat) :
    (tick s n).response =
      .requests ((advance { s with requests := [] } n).requests ++ coincidenceRequests (tick s n)) := by
  rw [tick_enabled_response hd, coincidenceRequests_eq, ieLyc, ieLyc, bit_tick_stat s n (by decide)]

/-! ## The VBlank requests of a frame (R107, R111) -/

/-- 1 on the lines of VBlank, where this frame's request has been made; 0 before them. -/
def vblanksEntered (s : State) : Nat := if s.mode = .vblank then 1 else 0

@[simp] theorem count_vblank_requestIf_lcdStat (b : Bool) : (requestIf b .lcdStat).count .vblank = 0 := by
  cases b <;> rfl

/-- A transition requests VBlank exactly when it enters VBlank from another mode. -/
theorem transition_vblank_requests (s : State) :
    (transition s).requests.count .vblank =
      s.requests.count .vblank + if s.mode ≠ .vblank ∧ (transition s).mode = .vblank then 1 else 0 := by
  obtain ⟨hm, ht⟩ | ⟨hm, ht⟩ | ⟨hm, -, ht⟩ | ⟨hm, -, ht⟩ | ⟨hm, -, ht⟩ | ⟨hm, -, ht⟩ := transition_cases s <;>
    simp [ht, hm]

/-- From a position of R31 a transition moves the frame time on by its budget; entering VBlank adds a request, and the wrap
after line 153 takes off the frame for which it was made. -/
theorem transition_vblank_balance {s : State} (h : LineAgrees s) :
    frameTime (transition s) + 70224 * ((transition s).requests.count .vblank + vblanksEntered s) =
      frameTime s + budget s.mode + 70224 * (s.requests.count .vblank + vblanksEntered (transition s)) := by
  rw [transition_vblank_requests]
  unfold frameTime vblanksEntered
  obtain ⟨hm, hm', hly⟩ | ⟨hm, hm', hly⟩ | ⟨hm, hl, hm', hly⟩ | ⟨hm, hl, hm', hly⟩ | ⟨hm, hl, hm', hly⟩ |
    ⟨hm, hl, hm', hly⟩ := transition_position h <;>
    simp [hm, hm', hly, modeOffset, budget] <;> omega

/-- The balance over the loop of a TICK. -/
theorem advance_vblank_balance {s : State} (hline : LineAgrees s) (hreq : s.requests = []) (n : Nat) :
    frameTime (advance s n) + 70224 * ((advance s n).requests.count .vblank + vblanksEntered s) =
      frameTime s + n + 70224 * vblanksEntered (advance s n) := by
  refine (advance_keeps (P := fun t => LineAgrees t ∧
    frameTime t + 70224 * (t.requests.count .vblank + vblanksEntered s) = frameTime s + n + 70224 * vblanksEntered t)
    (fun t hb ⟨ht, hbalance⟩ => ?_) ⟨hline, ?_⟩).2
  · have hpaid : LineAgrees { t with acc := t.acc - budget t.mode } := ht
    have hstep := transition_vblank_balance hpaid
    have hacc := frameTime_with_acc t (t.acc - budget t.mode)
    have hmode : vblanksEntered { t with acc := t.acc - budget t.mode } = vblanksEntered t := rfl
    refine ⟨transition_lineAgrees hpaid, ?_⟩
    dsimp only at hstep
    omega
  · have hacc := frameTime_with_acc s (s.acc + n)
    have hmode : vblanksEntered { s with acc := s.acc + n } = vblanksEntered s := rfl
    have hcount : s.requests.count .vblank = 0 := by rw [hreq]; rfl
    dsimp only
    omega

/-- In a position of R31 the VBlank lines are those from frame time 65664 on. -/
theorem vblanksEntered_eq {s : State} (hline : LineAgrees s) (hacc : AccBelowBudget s) :
    vblanksEntered s = (frameTime s + 4560) / 70224 := by
  have hcycles := modeOffset_add_acc_lt hacc
  obtain ⟨hly, hvb⟩ := hline
  unfold vblanksEntered frameTime
  split_ifs with hm
  · have := hvb.1 hm
    omega
  · have := mt hvb.2 hm
    omega

/-! ## The fields of STAT after a TICK -/

theorem tick_enabled_statMode {s : State} (hd : displayOn s = true) (n : Nat) :
    statMode (tick s n).regs.stat = modeCode (tick s n).mode := by
  rw [tick_enabled_eq hd n _ rfl]
  simp

theorem tick_enabled_statCoincidence {s : State} (hd : displayOn s = true) (n : Nat) :
    statCoincidence (tick s n).regs.stat = true ↔ (tick s n).regs.ly = (tick s n).regs.lyc := by
  rw [tick_enabled_eq hd n _ rfl]
  simp

theorem statCoincidence_disabledStat (s : State) :
    statCoincidence (disabledStat s) =
      if s.params.coincidenceWhenDisabled then 0#8 == s.regs.lyc else statCoincidence s.regs.stat := by
  unfold disabledStat
  split
  · exact statCoincidence_withCoincidence _ _
  · exact bit_withStatMode _ _ (by decide)

/-! ## TICKs that pay for no transition, and for one (R101, R102) -/

/-- A TICK that does not pay for the mode counts its cycles, writes STAT[2:0] and makes the comparator's request. -/
theorem tick_eq_of_lt {s : State} (hd : displayOn s = true) {n : Nat} (hn : s.acc + n < budget s.mode) :
    tick s n = { s with
      regs := { s.regs with stat := (tick s n).regs.stat }
      acc := s.acc + n
      requests := []
      response := .requests (coincidenceRequests s) } := by
  have hloop := advance_of_lt (s := { s with requests := [] }) hn
  rw [tick_enabled_eq hd n _ hloop.symm, coincidenceRequests_eq]
  rfl

/-- A TICK that pays for one transition and no more, from the state `t` which that transition leads to. -/
theorem tick_one_transition {s t : State} {m m' : Mode} {n : Nat} (hd : displayOn s = true) (hm : s.mode = m)
    (ht : transition { s with requests := [] } = t) (hm' : t.mode = m') (hpays : budget m ≤ s.acc + n)
    (hnext : s.acc + n < budget m + budget m') :
    (tick s n).mode = m' ∧ (tick s n).acc = s.acc + n - budget m ∧ (tick s n).regs.ly = t.regs.ly ∧
      (tick s n).fb = t.fb ∧ (tick s n).response = .requests (t.requests ++ coincidenceRequests (tick s n)) := by
  subst hm hm' ht
  obtain ⟨hmode, hacc, hly, hfb⟩ := tick_enabled_position hd n
  have hloop := advance_one (s := { s with requests := [] }) hpays (by dsimp only; omega)
  rw [transition_with_acc { s with requests := [] }] at hloop
  rw [hmode, hacc, hly, hfb, tick_response_of_enabled hd, hloop]
  exact ⟨rfl, rfl, rfl, rfl, rfl⟩

/-! ## The coincidence request again (R106, R115) -/

/-- The comparator's condition holds under its enable, and no cycle is left to pay for a transition. -/
structure CoincidenceHolds (s : State) : Prop where
  display_on : displayOn s = true
  acc_below : AccBelowBudget s
  ly_eq_lyc : s.regs.ly = s.regs.lyc
  enabled : bit s.regs.stat 6 = true

/-- `tick 0` requests the coincidence and leaves its condition. -/
theorem CoincidenceHolds.tick_zero {s : State} (h : CoincidenceHolds s) :
    CoincidenceHolds (tick s 0) ∧ (tick s 0).response = .requests [.lcdStat] := by
  obtain ⟨hd, hacc, hly, henabled⟩ := h
  have htick := tick_eq_of_lt (n := 0) hd hacc
  refine ⟨⟨(displayOn_tick s 0).trans hd, tick_accBelowBudget s 0, ?_, ?_⟩, ?_⟩
  · rw [htick]; exact hly
  · rw [bit_tick_stat s 0 (by decide)]; exact henabled
  · rw [htick, coincidenceRequests, if_pos ⟨hly, henabled⟩]

/-- A run of a partial step that is defined under `P`, keeps `P` and leaves `Q` is defined, keeps `P`, and leaves `Q` once it
has taken a step. -/
theorem foldl_some_of_keeps {α β : Type} {f : Option α → β → Option α} {P Q : α → Prop}
    (hf : ∀ a b, P a → ∃ a', f (some a) b = some a' ∧ P a' ∧ Q a') {a : α} (ha : P a) (l : List β) :
    ∃ a', l.foldl f (some a) = some a' ∧ P a' ∧ (l ≠ [] → Q a') := by
  induction l using List.reverseRecOn with
  | nil => exact ⟨a, rfl, ha, fun h => absurd rfl h⟩
  | append_singleton l b ih =>
    obtain ⟨c, hc, hP, -⟩ := ih
    obtain ⟨a', hstep, hP', hQ'⟩ := hf c b hP
    exact ⟨a', by rw [List.foldl_append, hc]; exact hstep, hP', fun _ => hQ'⟩

/-! ## Settled obligations -/

/-- Settles O49: every nonempty list of TICKs takes the transitions, makes the transition requests and leaves the state of one
TICK of all its cycles. -/
theorem chunkingDoesNotMatter : Obligations.ChunkingDoesNotMatter := by
  refine ⟨fun s ns ms hd hns hms hsum => ?_, fun s n hd => tick_response_of_enabled hd _⟩
  obtain ⟨n, ns, rfl⟩ := List.exists_cons_of_ne_nil hns
  obtain ⟨m, ms, rfl⟩ := List.exists_cons_of_ne_nil hms
  refine ⟨?_, ?_, ?_⟩
  · rw [ticksTransitions_eq hd, ticksTransitions_eq hd, hsum]
  · have hn := ticks_eq_tick hd n ns
    rw [hsum] at hn
    exact hn.trans (ticks_eq_tick hd m ms).symm
  · rw [ticksTransitionRequests_eq hd, ticksTransitionRequests_eq hd, hsum]

/-- Settles O51: over the loop the frame time is balanced by the VBlank requests, and the comparator makes none. -/
theorem vblankOncePerFrame : Obligations.VblankOncePerFrame := by
  intro s t n l hline hacc hd h hl
  obtain rfl := exec_tick_eq h
  rw [tick_response_of_enabled hd, Response.requests.injEq] at hl
  rw [← hl, List.count_append, coincidenceRequests_eq, count_vblank_requestIf_lcdStat]
  have hbalance := advance_vblank_balance (s := { s with requests := [] }) hline rfl n.toNat
  have hstart := vblanksEntered_eq (s := { s with requests := [] }) hline hacc
  have hend := vblanksEntered_eq (advance_lineAgrees (s := { s with requests := [] }) hline n.toNat)
    (advance_acc_lt { s with requests := [] } n.toNat)
  have htime : frameTime { s with requests := [] } = frameTime s := rfl
  omega

/-- Settles O40, by the fields of the disable path. -/
theorem disabledTick_holds : Obligations.DisabledTick := by
  intro s n hd
  have hcoincidence := statCoincidence_disabledStat s
  refine ⟨tick s n.toNat, disabledStat s, rfl, ?_, statMode_disabledStat s, fun hc => ?_, fun hc => ?_,
    fun b hb => bit_disabledStat s hb⟩
  · rw [tick_disabled_eq hd]
    cases hc : s.params.coincidenceWhenDisabled with
    | true => simp [requestIf, ieLyc, eq_comm (a := 0#8)]
    | false => simp
  · rw [hcoincidence, if_pos hc, beq_iff_eq, eq_comm]
  · rw [hcoincidence, hc]; rfl

/-- Settles O41, by the fields an enabled TICK leaves. -/
theorem enabledTick_holds : Obligations.EnabledTick := fun s n hd =>
  ⟨tick s n.toNat, rfl, tick_accBelowBudget s _, tick_enabled_statMode hd _, tick_enabled_statCoincidence hd _,
    fun _ hb => bit_tick_stat s _ hb, tick_response_of_enabled hd _, rfl⟩

/-- Settles O43: the loop ends where it starts, with the cycles counted. -/
theorem tickWithoutTransition : Obligations.TickWithoutTransition := by
  intro s n hd hn
  have htick := tick_eq_of_lt hd hn
  have hmode := tick_enabled_statMode hd n.toNat
  have hcoincidence := tick_enabled_statCoincidence hd n.toNat
  refine ⟨tick s n.toNat, rfl, htick, ?_, ?_, fun b hb => bit_tick_stat s _ hb⟩
  · rw [hmode, htick]
  · rw [hcoincidence, htick]

/-- Settles O44, by the table's row of OAMScan. -/
theorem oamScanEnds : Obligations.OamScanEnds := by
  intro s n hd hm hpays hnext
  have hrow := transition_of_oamScan (s := { s with requests := [] }) hm
  exact ⟨tick s n.toNat, rfl, tick_one_transition hd hm hrow rfl hpays hnext⟩

/-- Settles O45, by the table's row of VRAMTransfer. -/
theorem vramTransferEnds : Obligations.VramTransferEnds := by
  intro s n hd hm hpays hnext
  have hrow := transition_of_vramTransfer (s := { s with requests := [] }) hm
  obtain ⟨hmode, hacc, hly, hfb, hresponse⟩ := tick_one_transition hd hm hrow (State.raiseIf_mode _ _ _) hpays hnext
  simp only [State.raiseIf_regs, State.raiseIf_fb, State.raiseIf_requests] at hly hfb hresponse
  exact ⟨tick s n.toNat, rfl, hmode, hacc, hly, hfb, hresponse⟩

/-- Settles O46, by the table's two rows of HBlank: LY is 143, or it is not. -/
theorem hblankEnds : Obligations.HblankEnds := by
  intro s n hd hm hpays hnext
  have hsucc : (s.regs.ly + 1#8).toNat = (s.regs.ly.toNat + 1) % 256 := BitVec.toNat_add _ _
  refine ⟨tick s n.toNat, rfl, ?_⟩
  by_cases h143 : s.regs.ly.toNat = 143
  · have hrow := transition_of_hblank_last (s := { s with requests := [] }) hm (by bv_omega)
    rw [if_pos h143] at hnext
    obtain ⟨hmode, hacc, hly, hfb, hresponse⟩ := tick_one_transition hd hm hrow (State.raiseIf_mode _ _ _) hpays hnext
    simp only [State.raiseIf_regs, State.raiseIf_fb, State.raiseIf_requests] at hly hfb hresponse
    exact ⟨hacc, (congrArg BitVec.toNat hly).trans hsucc, hfb, fun _ => ⟨hmode, hresponse⟩, fun h => absurd h143 h⟩
  · have hrow := transition_of_hblank (s := { s with requests := [] }) hm (by bv_omega)
    rw [if_neg h143] at hnext
    obtain ⟨hmode, hacc, hly, hfb, hresponse⟩ := tick_one_transition hd hm hrow (State.raiseIf_mode _ _ _) hpays hnext
    simp only [State.raiseIf_regs, State.raiseIf_fb, State.raiseIf_requests] at hly hfb hresponse
    exact ⟨hacc, (congrArg BitVec.toNat hly).trans hsucc, hfb, fun h => absurd h h143, fun _ => ⟨hmode, hresponse⟩⟩

/-- Settles O47, by the table's two rows of VBlank: LY steps past 153, or it does not. -/
theorem vblankLineEnds : Obligations.VblankLineEnds := by
  intro s n hd hm hpays hnext
  have hsucc : (s.regs.ly + 1#8).toNat = (s.regs.ly.toNat + 1) % 256 := BitVec.toNat_add _ _
  have hbyte := s.regs.ly.isLt
  refine ⟨tick s n.toNat, rfl, ?_⟩
  by_cases hpast : 153 ≤ s.regs.ly.toNat ∧ s.regs.ly.toNat ≤ 254
  · have hrow := transition_of_vblank_wrap (s := { s with requests := [] }) hm (by dsimp only; omega)
    rw [if_pos hpast] at hnext
    obtain ⟨hmode, hacc, hly, hfb, hresponse⟩ := tick_one_transition hd hm hrow (State.raiseIf_mode _ _ _) hpays hnext
    simp only [State.raiseIf_regs, State.raiseIf_fb, State.raiseIf_requests] at hly hfb hresponse
    exact ⟨hacc, hfb, fun _ => ⟨hly, hmode, hresponse⟩, fun h => absurd h (by omega)⟩
  · have hrow := transition_of_vblank (s := { s with requests := [] }) hm (by dsimp only; omega)
    rw [if_neg hpast] at hnext
    obtain ⟨hmode, hacc, hly, hfb, hresponse⟩ := tick_one_transition hd hm hrow hm hpays hnext
    exact ⟨hacc, hfb, fun h => absurd h hpast, fun _ => ⟨(congrArg BitVec.toNat hly).trans hsucc, hmode, hresponse⟩⟩

/-- Settles O48: `tick 0` takes no transition, so LY, LYC and the enable stay, and the comparator requests again. -/
theorem coincidenceRefires : Obligations.CoincidenceRefires := by
  intro s hd hacc hly henabled ns
  refine Exists.imp (fun t ⟨hrun, ht, hresponse⟩ => ⟨hrun, ht.ly_eq_lyc, ht.enabled, hresponse⟩)
    (foldl_some_of_keeps (P := CoincidenceHolds) (Q := fun t => t.response = .requests [.lcdStat])
      (fun u _ hu => ?_) ⟨hd, hacc, hly, henabled⟩ ns)
  exact ⟨tick u 0, rfl, hu.tick_zero⟩

/-- Settles O20: each write sets LCDC and the response, and nothing else. -/
theorem lcdcToggleWithoutTick : Obligations.LcdcToggleWithoutTick := by
  intro s t u v hwrite hrestore
  cases hwrite
  cases hrestore
  rfl

end Sys2Proof.Machine
end

section
/-! Background and window: tile addresses, the layer of a column, its coordinates and its colour, what of LCDC the renderers
read, and the settled obligations of 41_bg_window_renderer.md. -/

namespace Sys2Proof.Machine

/-! ## Tile addresses (R132, R140) -/

/-- Both addressing modes: a tile lies 16 bytes per index above 0x8000, or above 0x9000 for a signed index below 128. -/
theorem tileAddress_eq (unsigned : Bool) (idx : Byte) :
    tileAddress unsigned idx = (if unsigned = false ∧ idx.toNat < 128 then 0x9000 else 0x8000) + 16 * idx.toNat := by
  cases unsigned with
  | true => simp [tileAddress]
  | false =>
    have hidx := idx.isLt
    have hsigned := BitVec.toInt_eq_toNat_cond idx
    simp only [tileAddress, Bool.false_eq_true, if_false, true_and]
    split_ifs at hsigned ⊢ <;> omega

/-! ## The layer of a column and its coordinates (R130, R131) -/

/-- The window test without subtraction. -/
theorem windowActive_iff (s : State) (line px : Nat) : windowActive s line px = true ↔
    winOn s = true ∧ s.regs.wy.toNat ≤ line ∧ s.regs.wx.toNat ≤ px + 7 := by
  simp only [windowActive, Bool.and_eq_true, decide_eq_true_eq, and_assoc]
  exact and_congr_right fun _ => and_congr_right fun _ => by omega

theorem windowActive_eq_false {s : State} {line px : Nat} (h : line < s.regs.wy.toNat ∨ px + 7 < s.regs.wx.toNat) :
    windowActive s line px = false := by
  rw [Bool.eq_false_iff, Ne, windowActive_iff]
  omega

theorem layerX_window {s : State} {px : Nat} (h : s.regs.wx.toNat ≤ px + 7) :
    layerX s true px + s.regs.wx.toNat = px + 7 := by
  simp only [layerX, if_true]
  omega

theorem layerY_window {s : State} {line : Nat} (h : s.regs.wy.toNat ≤ line) :
    layerY s true line + s.regs.wy.toNat = line := by
  simp only [layerY, if_true]
  omega

theorem layerX_lt (s : State) (win : Bool) {px : Nat} (h : px < 160) : layerX s win px < 256 := by
  cases win with
  | true => simp only [layerX, if_true]; omega
  | false => exact Nat.mod_lt _ (by decide)

theorem layerY_lt (s : State) (win : Bool) {line : Nat} (h : line < 256) : layerY s win line < 256 := by
  cases win with
  | true => simp only [layerY, if_true]; omega
  | false => exact Nat.mod_lt _ (by decide)

/-! ## The colour of a column (R133 to R137) -/

/-- Coordinates of the 256 × 256 layer need no wrap in the tile map. -/
theorem layerMapAddress_of_lt (s : State) (win : Bool) {x y : Nat} (hx : x < 256) (hy : y < 256) :
    layerMapAddress s win x y = layerBase s win + 32 * (y / 8) + x / 8 := by
  unfold layerMapAddress mapEntryAddress
  omega

theorem toNat_colourId (p0 p1 : Byte) (b : Nat) : (colourId p0 p1 b).toNat = 2 * (bit p1 b).toNat + (bit p0 b).toNat := by
  unfold colourId
  cases bit p1 b <;> cases bit p0 b <;> rfl

theorem bgColour_blanked {s : State} (hgate : s.params.bgEnableGate = true) (hoff : bgOn s = false) (line px : Nat) :
    bgColour s line px = shadeColour s.params.shadeColor 0#2 := by
  simp [bgColour, hgate, hoff]

theorem bgColour_shown {s : State} (h : ¬ (s.params.bgEnableGate = true ∧ bgOn s = false)) (line px : Nat) :
    bgColour s line px = shadeColour s.params.shadeColor (palette (bgColourId s line px) s.regs.bgp) := by
  unfold bgColour
  rw [if_neg]
  simpa using h

/-! ## What the layers read (R137, R138) -/

/-- The colour id at layer coordinates depends on VRAM and on LCDC[6], LCDC[4] and LCDC[3] only. -/
theorem layerColourId_congr {s t : State} (hvram : t.vram = s.vram)
    (hbits : ∀ b, 2 ≤ b → bit t.regs.lcdc b = bit s.regs.lcdc b) (win : Bool) (x y : Nat) :
    layerColourId t win x y = layerColourId s win x y := by
  have hread : ∀ a, t.vramRead a = s.vramRead a := fun a => congrArg (Memory.read · a) hvram
  have hwin : winMapHigh t = winMapHigh s := hbits 6 (by decide)
  have hbg : bgMapHigh t = bgMapHigh s := hbits 3 (by decide)
  have htiles : unsignedTiles t = unsignedTiles s := hbits 4 (by decide)
  have hmap : layerMapAddress t win x y = layerMapAddress s win x y := by
    simp only [layerMapAddress, layerBase, hwin, hbg]
  have htile : layerTileRowAddress t win x y = layerTileRowAddress s win x y := by
    simp only [layerTileRowAddress, htiles, hread, hmap]
  simp only [layerColourId, hread, htile]

/-- R138 (f): the scroll registers do not reach a window column. -/
theorem bgColour_window_scroll {s : State} {line px : Nat} (h : windowActive s line px = true) (scx scy : Byte) :
    bgColour ((s.setReg .scx scx).setReg .scy scy) line px = bgColour s line px := by
  have hactive : windowActive ((s.setReg .scx scx).setReg .scy scy) line px = true := h
  have hid : bgColourId ((s.setReg .scx scx).setReg .scy scy) line px = bgColourId s line px := by
    simp only [bgColourId, h, hactive]
    exact layerColourId_congr rfl (fun _ _ => rfl) true _ _
  unfold bgColour
  rw [hid]
  rfl

/-! ## LCDC[1:0] without the enable gates (R137, R158) -/

section
variable {s : State} {v : Byte} (hbits : ∀ b, 2 ≤ b → bit v b = bit s.regs.lcdc b)
include hbits

theorem bgColour_setLcdc (hgate : s.params.bgEnableGate = false) (line px : Nat) :
    bgColour (s.setReg .lcdc v) line px = bgColour s line px := by
  have hwin : winOn (s.setReg .lcdc v) = winOn s := hbits 5 (by decide)
  have hactive : windowActive (s.setReg .lcdc v) line px = windowActive s line px := by
    unfold windowActive
    rw [hwin]
    rfl
  have hid : bgColourId (s.setReg .lcdc v) line px = bgColourId s line px := by
    unfold bgColourId
    rw [hactive]
    exact layerColourId_congr (s := s) (t := s.setReg .lcdc v) rfl hbits _ _ _
  rw [bgColour_shown (by simp [hgate]), bgColour_shown (by simp [hgate]), hid]
  rfl

theorem renderBgWindow_setLcdc (hgate : s.params.bgEnableGate = false) (line : Nat) :
    renderBgWindow (s.setReg .lcdc v) line = (renderBgWindow s line).setReg .lcdc v := by
  have hfb : bgFramebuffer (s.setReg .lcdc v) line = bgFramebuffer s line := by
    simp only [bgFramebuffer, bgColour_setLcdc hbits hgate, State.setReg_params, State.setReg_fb]
  unfold renderBgWindow
  rw [hfb]
  rfl

/-- Of LCDC a sprite depends on LCDC[2] only. -/
theorem drawSprite_setLcdc (line : Nat) : drawSprite (s.setReg .lcdc v) line = drawSprite s line := by
  have htall : tallSprites (s.setReg .lcdc v) = tallSprites s := hbits 2 (by decide)
  have hheight : spriteHeight (s.setReg .lcdc v) = spriteHeight s := by unfold spriteHeight; rw [htall]
  have hid : ∀ i c, spriteColourId (s.setReg .lcdc v) line i c = spriteColourId s line i c := by
    intro i c
    simp only [spriteColourId, spriteRowAddress, spriteTile, spriteRow, hheight, htall]
    rfl
  have hcolumn : ∀ i, drawSpriteColumn (s.setReg .lcdc v) line i = drawSpriteColumn s line i := by
    intro i
    funext fb c
    simp only [drawSpriteColumn, spriteColour, hid]
    rfl
  funext fb i
  simp only [drawSprite, spriteVisible, hheight, hcolumn]
  rfl

theorem spriteFramebuffer_setLcdc (hgate : s.params.objEnableGate = false) (line : Nat) :
    spriteFramebuffer (s.setReg .lcdc v) line = spriteFramebuffer s line := by
  simp only [spriteFramebuffer, drawSprite_setLcdc hbits, State.setReg_params, State.setReg_fb, hgate, Bool.false_and]

end

theorem spriteFramebuffer_skipped {s : State} (hgate : s.params.objEnableGate = true) (hoff : objOn s = false) (line : Nat) :
    spriteFramebuffer s line = s.fb := by
  simp [spriteFramebuffer, hgate, hoff]

/-! ## Settled obligations -/

/-- Settles O29: on the line's rows the block of a pixel's own logical column covers it, and no other block; elsewhere none
does. -/
theorem backgroundFillsLine : Obligations.BackgroundFillsLine := by
  intro s line a b ha hb
  split_ifs with hline
  · have hcolumn : a / s.params.scale < columns := (Nat.div_lt_iff_lt_mul (scale_pos hb)).2 ha
    rw [renderBgWindow_fb, bgFramebuffer]
    refine forEach_pixel_written (D := (· = a / s.params.scale)) (c := bgColour s line) (fun px _ fb => ?_)
      (List.mem_range.2 hcolumn) rfl (fun px _ hpx => by rw [hpx]) s.fb
    simp only [fbPixel_fill _ _ _ _ _ ha hb, covers_iff hb hline, Nat.cast_inj]
  · exact fbPixel_bgFramebuffer_other s ha hb hline

/-- Settles O30: the statement's x, y and base are those of the layer the window test chooses, and the rest follows address
by address. -/
theorem backgroundPixel : Obligations.BackgroundPixel := by
  intro s line px x y base tile idx p0 p1 hpx hline hshown hwindow hbackground hidx htile hp0 hp1
  have hlayer : x = layerX s (windowActive s line px) px ∧ y = layerY s (windowActive s line px) line ∧
      base = layerBase s (windowActive s line px) := by
    cases hactive : windowActive s line px with
    | true =>
      obtain ⟨hon, hwy, hwx⟩ := (windowActive_iff s line px).1 hactive
      obtain ⟨hx, hy, hbase⟩ := hwindow ⟨hon, hwy, hwx⟩
      have hx' := layerX_window hwx
      have hy' := layerY_window hwy
      exact ⟨by omega, by omega, hbase⟩
    | false => exact hbackground fun h => absurd ((windowActive_iff s line px).2 h) (by simp [hactive])
  obtain ⟨rfl, rfl, rfl⟩ := hlayer
  rw [← layerMapAddress_of_lt s _ (layerX_lt s _ hpx) (layerY_lt s _ hline)] at hidx
  have hrow : tile + 2 * (layerY s (windowActive s line px) line % 8) =
      layerTileRowAddress s (windowActive s line px) (layerX s (windowActive s line px) px)
        (layerY s (windowActive s line px) line) := by
    rw [layerTileRowAddress, tileAddress_eq, ← hidx, Nat.mul_comm _ 2, htile]
    rfl
  rw [hrow] at hp0 hp1
  refine ⟨bgColourId s line px, ?_, bgColour_shown hshown line px⟩
  rw [hp0, hp1]
  exact toNat_colourId _ _ _

/-- Settles O31, by the window test and the window's coordinates. -/
theorem windowCornerCases : Obligations.WindowCornerCases := by
  intro s line px hpx
  have hleft : winOn s = true → s.regs.wy.toNat ≤ line → s.regs.wx.toNat ≤ 7 →
      windowActive s line px = true ∧ layerX s true px + s.regs.wx.toNat = px + 7 := fun hon hwy hwx =>
    ⟨(windowActive_iff s line px).2 ⟨hon, hwy, by omega⟩, layerX_window (by omega)⟩
  refine ⟨fun hwy => windowActive_eq_false (.inl hwy),
    fun hon hwy hwx => (hleft hon hwy (by omega)).imp_right fun hx => by omega,
    fun hon hwy hwx => (hleft hon hwy (by omega)).imp_right fun hx => by omega,
    fun hwx => windowActive_eq_false (.inr (by omega)), fun hactive => ?_,
    fun hactive => bgColour_window_scroll hactive⟩
  obtain ⟨-, hwy, -⟩ := (windowActive_iff s line px).1 hactive
  have hy := layerY_window hwy
  omega

/-- Settles O32: with the gates off both renders depend on LCDC[7:2] only; with them on, the gates' branches. -/
theorem enableGates : Obligations.EnableGates := by
  refine ⟨fun s v hbg hobj hbits => ?_, fun s line px hgate hoff => bgColour_blanked hgate hoff line px,
    fun s line hgate hoff => spriteFramebuffer_skipped hgate hoff line⟩
  calc (renderLine (s.setReg .lcdc v)).fb
    _ = spriteFramebuffer (renderBgWindow (s.setReg .lcdc v) s.regs.ly.toNat) s.regs.ly.toNat := rfl
    _ = spriteFramebuffer ((renderBgWindow s s.regs.ly.toNat).setReg .lcdc v) s.regs.ly.toNat := by
      rw [renderBgWindow_setLcdc hbits hbg]
    _ = spriteFramebuffer (renderBgWindow s s.regs.ly.toNat) s.regs.ly.toNat :=
      spriteFramebuffer_setLcdc (s := renderBgWindow s s.regs.ly.toNat) hbits hobj _

/-- Settles O27, by the one equation of both addressing modes. -/
theorem tileAddressModes : Obligations.TileAddressModes := by
  have hunsigned : ∀ idx, tileAddress true idx = 0x8000 + 16 * idx.toNat := fun _ => rfl
  refine ⟨fun idx h => ?_, fun idx h => ?_, rfl, rfl⟩
  · have hsigned : tileAddress false idx = 0x8000 + 16 * idx.toNat := by
      rw [tileAddress_eq, if_neg (by omega)]
    rw [hunsigned, hsigned]
    exact ⟨rfl, by omega, rfl⟩
  · have hsigned : tileAddress false idx = 0x9000 + 16 * idx.toNat := by
      rw [tileAddress_eq, if_pos ⟨rfl, h⟩]
    rw [hunsigned, hsigned]
    exact ⟨rfl, rfl, by omega⟩

end Sys2Proof.Machine
end

section
/-! Sprite renderer: the extent and tile data of a sprite, the column a sprite offers a pixel, the block of a logical pixel
under the scan of OAM, and the settled obligations of 42_sprite_renderer.md. -/

namespace Sys2Proof.Machine

/-! ## Tile data of a sprite (R155 to R157) -/

theorem spriteRow_unflipped {s : State} {line i : Nat} (h : spriteVisible s line i = true)
    (hflip : flagYFlip (oamFlags s i) = false) : (spriteRow s line i : Int) = line - spriteTop s i := by
  obtain ⟨htop, -⟩ := (spriteVisible_iff s line i).1 h
  simp only [spriteRow, hflip, Bool.false_eq_true, if_false, spriteTop]
  omega

theorem spriteRow_flipped {s : State} {line i : Nat} (h : spriteVisible s line i = true)
    (hflip : flagYFlip (oamFlags s i) = true) :
    (spriteRow s line i : Int) = spriteHeight s - 1 - (line - spriteTop s i) := by
  obtain ⟨htop, hbottom⟩ := (spriteVisible_iff s line i).1 h
  simp only [spriteRow, hflip, if_true, spriteTop]
  omega

/-- `TALL_SPRITE_MASK` rounds the tile index down to an even one (R156). -/
theorem toNat_spriteTile (s : State) (i : Nat) : (spriteTile s i).toNat =
    if s.params.tallSpriteMask = true ∧ tallSprites s = true then (oamTile s i).toNat / 2 * 2 else (oamTile s i).toNat := by
  have heven : ∀ t : Byte, (t &&& 0xFE#8).toNat = t.toNat / 2 * 2 := by decide
  simp only [spriteTile, Bool.and_eq_true]
  split_ifs
  · exact heven _
  · rfl

/-! ## Columns outside the screen (R153, R160) -/

theorem drawSpriteColumn_offscreen (s : State) (line i : Nat) (fb : Framebuffer) {c : Nat}
    (h : spriteLeft s i + c < 0 ∨ 160 ≤ spriteLeft s i + c) : drawSpriteColumn s line i fb c = fb := by
  have hfill := fill_dropped s.params (px := spriteLeft s i + c) (line := line) fb (spriteColour s line i c)
    (h.imp_right .inl)
  unfold drawSpriteColumn
  split_ifs
  · rfl
  · exact hfill
  · rfl

/-- The block of a logical pixel whose top-left pixel lies outside the framebuffer lies outside it as a whole. -/
theorem fill_of_topLeft_outside (p : Params) {px line : Int} (fb : Framebuffer) (col : Nat)
    (h : ¬ Inside p (px * p.scale) (line * p.scale)) : fill p fb px line col = fb := by
  by_cases hpos : 0 < (p.scale : Int)
  · refine fill_dropped p fb col ?_
    by_contra hin
    obtain ⟨hleft, hright, htop, hbottom⟩ : 0 ≤ px ∧ px < 160 ∧ 0 ≤ line ∧ line * p.scale < fbHeight p := by omega
    refine h ⟨Int.mul_nonneg hleft hpos.le, ?_, Int.mul_nonneg htop hpos.le, hbottom⟩
    rw [fbWidth, Nat.cast_mul]
    exact Int.mul_lt_mul_of_pos_right hright hpos
  · exact fill_of_outside p fb col fun dx _ hdx => by omega

/-! ## The behind-background test (R159) -/

theorem behindOk_iff {s : State} {fb : Framebuffer} {px line : Int} : behindOk s fb px line = true ↔
    fbGet s.params fb (px * s.params.scale) (line * s.params.scale) = some (behindColour s) := by
  unfold behindOk
  split <;> simp_all

theorem shadeColour_zero (t : ShadeTable) : shadeColour t 0#2 = t.shade0 := rfl

theorem behindColour_white {s : State} (h : s.params.behindBgTest = .white) :
    behindColour s = s.params.shadeColor.shade0 := by
  rw [behindColour, h]
  rfl

theorem behindColour_bgpColor0 {s : State} (h : s.params.behindBgTest = .bgpColor0) :
    behindColour s = shadeColour s.params.shadeColor (palette 0#2 s.regs.bgp) := by
  rw [behindColour, h]

/-! ## What a sprite offers a column -/

theorem spriteOffers_eq_some_iff {s : State} {line i px col : Nat} : spriteOffers s line i px = some col ↔
    spriteVisible s line i = true ∧
      ∃ c : Nat, c < 8 ∧ spriteLeft s i + c = px ∧ spriteColourId s line i c ≠ 0#2 ∧ spriteColour s line i c = col := by
  unfold spriteOffers
  constructor
  · intro h
    split_ifs at h with hc
    obtain ⟨hvisible, hlow, hhigh, hopaque⟩ := hc
    exact ⟨hvisible, _, by omega, by omega, hopaque, Option.some.inj h⟩
  · rintro ⟨hvisible, c, hc, hpx, hopaque, rfl⟩
    obtain rfl : ((px : Int) - spriteLeft s i).toNat = c := by omega
    rw [if_pos ⟨hvisible, by omega, by omega, hopaque⟩]

/-- A column that offers nothing is transparent. -/
theorem spriteColourId_of_no_offer {s : State} {line i px c : Nat} (h : spriteOffers s line i px = none)
    (hvisible : spriteVisible s line i = true) (hc : c < 8) (hpx : spriteLeft s i + c = px) :
    spriteColourId s line i c = 0#2 := by
  by_contra hopaque
  have := spriteOffers_eq_some_iff.2 ⟨hvisible, c, hc, hpx, hopaque, rfl⟩
  simp [h] at this

/-- A sprite that offers a pixel's column no colour leaves the pixel as it was. -/
theorem fbPixel_drawSprite_of_no_offer {s : State} {line i a b : Nat} (ha : a < fbWidth s.params)
    (hb : b < fbHeight s.params) (hrow : b / s.params.scale = line)
    (h : spriteOffers s line i (a / s.params.scale) = none) (fb : Framebuffer) :
    fbPixel s.params (drawSprite s line fb i) a b = fbPixel s.params fb a b := by
  unfold drawSprite
  split_ifs with hvisible
  · refine forEach_pixel_unwritten (fun c hc g => ?_) fb
    rw [fbPixel_drawSpriteColumn _ _ _ _ _ ha hb, if_neg]
    rintro ⟨hopaque, -, hcovers⟩
    exact hopaque (spriteColourId_of_no_offer h hvisible (List.mem_range.1 hc) ((covers_iff hb hrow).1 hcovers))
  · rfl

/-! ## The block of a logical pixel under the scan (R152, R161) -/

/-- Every pixel of the block of logical pixel (px, L) that lies in the framebuffer holds a colour. -/
def BlockHolds (p : Params) (px line col : Nat) (fb : Framebuffer) : Prop :=
  ∀ a b, a < fbWidth p → b < fbHeight p → Covers p px line a b → fbPixel p fb a b = col

theorem column_of_covers {p : Params} {px line a b : Nat} (hb : b < fbHeight p) (h : Covers p px line a b) :
    a / p.scale = px := by
  exact_mod_cast ((covers_iff hb (row_of_covers hb h)).1 h).symm

/-- Two blocks of one line that cover one pixel are the same block. -/
theorem covers_column_unique {p : Params} {px px' : Int} {line a b : Nat} (hb : b < fbHeight p)
    (h : Covers p px line a b) (h' : Covers p px' line a b) : px = px' :=
  ((covers_iff hb (row_of_covers hb h)).1 h).trans ((covers_iff hb (row_of_covers hb h)).1 h').symm

/-- A block that holds another colour than the test colour fails the behind-background test: its top-left pixel is one of its
pixels. -/
theorem BlockHolds.behindOk_eq_false {s : State} {px line col : Nat} {fb : Framebuffer}
    (h : BlockHolds s.params px line col fb) (hcol : col ≠ behindColour s) : behindOk s fb px line = false := by
  rw [Bool.eq_false_iff, Ne, behindOk_iff, fbGet_eq_some]
  rintro ⟨⟨-, hright, -, hbottom⟩, hpixel⟩
  norm_cast at hright hbottom hpixel
  have hpos := scale_pos hbottom
  refine hcol ((h _ _ hright hbottom ?_).symm.trans hpixel)
  constructor <;> constructor <;> push_cast <;> omega

/-- A sprite above the background fills the block of a column it offers a colour. -/
theorem drawSprite_blockHolds {s : State} {line i px col : Nat} (habove : flagBehind (oamFlags s i) = false)
    (h : spriteOffers s line i px = some col) (fb : Framebuffer) :
    BlockHolds s.params px line col (drawSprite s line fb i) := by
  intro a b ha hb hcovers
  obtain ⟨hvisible, c, hc, hpx, hopaque, rfl⟩ := spriteOffers_eq_some_iff.1 h
  rw [← hpx] at hcovers
  rw [drawSprite, if_pos hvisible]
  refine forEach_pixel_written
    (D := fun k => spriteColourId s line i k ≠ 0#2 ∧ Covers s.params (spriteLeft s i + k) line a b)
    (c := spriteColour s line i) (fun k _ g => ?_) (List.mem_range.2 hc) ⟨hopaque, hcovers⟩ (fun k _ hk => ?_) fb
  · simp only [fbPixel_drawSpriteColumn _ _ _ _ _ ha hb, habove, true_or, true_and]
  · have := covers_column_unique hb hk.2 hcovers
    obtain rfl : k = c := by omega
    rfl

/-- A sprite that offers a column nothing keeps the column's block. -/
theorem BlockHolds.drawSprite_of_no_offer {s : State} {line j px col : Nat} {fb : Framebuffer}
    (h : BlockHolds s.params px line col fb) (hoffer : spriteOffers s line j px = none) :
    BlockHolds s.params px line col (drawSprite s line fb j) := by
  intro a b ha hb hcovers
  rw [fbPixel_drawSprite_of_no_offer ha hb (row_of_covers hb hcovers) (by rwa [column_of_covers hb hcovers])]
  exact h a b ha hb hcovers

/-- R161 (b): a sprite behind the background keeps a block that holds another colour than the test colour. -/
theorem BlockHolds.drawSprite_of_behind {s : State} {line j px col : Nat} {fb : Framebuffer}
    (h : BlockHolds s.params px line col fb) (hbehind : flagBehind (oamFlags s j) = true) (hcol : col ≠ behindColour s) :
    BlockHolds s.params px line col (drawSprite s line fb j) := by
  unfold drawSprite
  split_ifs
  · refine forEach_keeps (P := BlockHolds s.params px line col) (fun c _ g hg a b ha hb hcovers => ?_) h
    rw [fbPixel_drawSpriteColumn _ _ _ _ _ ha hb, if_neg, hg a b ha hb hcovers]
    rintro ⟨-, hdrawn, hcovers'⟩
    rw [covers_column_unique hb hcovers' hcovers, hg.behindOk_eq_false hcol, hbehind] at hdrawn
    simp at hdrawn
  · exact h

/-- What iteration i of a falling loop establishes and the iterations after it keep holds at its end. -/
theorem forEach_falling_establishes {P : Framebuffer → Prop} {f : Framebuffer → Nat → Framebuffer} {n i : Nat} (hi : i < n)
    (hset : ∀ fb, P (f fb i)) (hkeep : ∀ j < i, ∀ fb, P fb → P (f fb j)) (fb : Framebuffer) :
    P (forEach f (List.range n).reverse fb) := by
  induction n generalizing fb with
  | zero => omega
  | succ n ih =>
    rw [List.range_succ, List.reverse_concat, forEach_cons]
    obtain hlt | rfl := Nat.lt_succ_iff_lt_or_eq.1 hi
    · exact ih hlt _
    · exact forEach_keeps (fun j hj => hkeep j (by simpa using hj)) (hset fb)

theorem spriteFramebuffer_drawn {s : State} (h : ¬ (s.params.objEnableGate = true ∧ objOn s = false)) (line : Nat) :
    spriteFramebuffer s line = forEach (drawSprite s line) scanOrder s.fb := by
  rw [spriteFramebuffer, if_neg (by simpa using h)]

/-! ## Settled obligations -/

/-- Settles O33: the extent's inequalities, and for the corners of X that all eight columns lie off the screen. -/
theorem spriteExtent : Obligations.SpriteExtent := by
  refine ⟨fun _ => rfl, spriteVisible_iff, fun s line i hy => ?_, fun s line i hy hvisible => ?_, fun s line i fb hx => ?_⟩
  · have hheight := spriteHeight_le s
    rw [Bool.eq_false_iff, Ne, spriteVisible_iff, hy, BitVec.toNat_zero]
    omega
  · obtain ⟨htop, -⟩ := (spriteVisible_iff s line i).1 hvisible
    omega
  · have hoff : ∀ c : Nat, c < 8 → spriteLeft s i + c < 0 ∨ 160 ≤ spriteLeft s i + c := by
      intro c hc
      unfold spriteLeft
      obtain hzero | hright := hx
      · rw [hzero, BitVec.toNat_zero]
        omega
      · omega
    unfold drawSprite
    split_ifs
    · refine forEach_keeps (P := (· = fb)) (fun c hc g hg => ?_) rfl
      rw [drawSpriteColumn_offscreen s line i g (hoff c (List.mem_range.1 hc)), hg]
    · rfl

/-- Settles O34, by the tile row with and without Y flip. -/
theorem spriteRowFlip : Obligations.SpriteRowFlip := fun _ _ _ hvisible =>
  ⟨spriteRow_lt_height hvisible, spriteRow_unflipped hvisible, spriteRow_flipped hvisible⟩

/-- Settles O35: the statement's row is the sprite's tile row, so its plane bytes are the ones the sprite reads. -/
theorem spriteColumnColour : Obligations.SpriteColumnColour := by
  rintro s line i c row y t f p0 p1 - - rfl rfl rfl hvisible hunflipped hflipped rfl rfl
  have hrow : row = spriteRow s line i := by
    cases hflip : flagYFlip (oamFlags s i) with
    | false =>
      have hsprite := spriteRow_unflipped hvisible hflip
      have hspec : row + (oamY s i).toNat = line + 16 := hunflipped hflip
      unfold spriteTop at hsprite
      omega
    | true =>
      have hsprite := spriteRow_flipped hvisible hflip
      have hspec : row + line + 16 = (oamY s i).toNat + if tallSprites s then 15 else 7 := hflipped hflip
      have hlast : spriteHeight s = (if tallSprites s then 15 else 7) + 1 := by unfold spriteHeight; split <;> rfl
      unfold spriteTop at hsprite
      omega
  have htile := toNat_spriteTile s i
  have haddress : spriteRowAddress s line i = 0x8000 + 16 * (spriteTile s i).toNat + 2 * row := by rw [hrow]; rfl
  rw [htile] at haddress
  refine ⟨?_, rfl⟩
  rw [spriteColourId, toNat_colourId, haddress]
  rfl

/-- Settles O36: one column of a sprite in each pixel, and the two readings of the test colour. -/
theorem behindBackgroundTest : Obligations.BehindBackgroundTest := by
  refine ⟨fun s line i c a b fb ha hb hopaque hcovers => ?_, fun _ => behindColour_white, fun _ => behindColour_bgpColor0,
    fun s hbgp => ?_⟩
  · rw [fbPixel_drawSpriteColumn _ _ _ _ _ ha hb]
    refine if_congr ?_ rfl rfl
    rw [and_iff_right hopaque, and_iff_left hcovers, behindOk_iff]
    rfl
  · cases htest : s.params.behindBgTest with
    | white => exact behindColour_white htest
    | bgpColor0 => rw [behindColour_bgpColor0 htest, hbgp, shadeColour_zero]

/-- Settles O37: inside the framebuffer the read-back is the test's own; outside it the block is dropped. -/
theorem readBackValueIrrelevant : Obligations.ReadBackValueIrrelevant := by
  intro v s line i c fb
  unfold drawSpriteColumn spriteColumnReading
  by_cases hin : Inside s.params ((spriteLeft s i + c) * s.params.scale) (line * s.params.scale)
  · simp only [Bool.or_eq_true, Bool.not_eq_true', behindOk_iff, fbGet_of_inside fb hin, Option.some.injEq,
      Option.getD_some]
  · simp only [fill_of_topLeft_outside s.params fb _ hin, ite_self]

/-- Settles O38: sprite i fills its block, and every sprite of lower index, drawn after it, keeps the block. -/
theorem lowestIndexWins : Obligations.LowestIndexWins := by
  intro s line i px a b c hgate hi _ ha hb hcovers habove hoffer hlower
  have hblock : BlockHolds s.params px line c (spriteFramebuffer s line) := by
    rw [spriteFramebuffer_drawn hgate]
    refine forEach_falling_establishes hi (drawSprite_blockHolds habove hoffer) (fun j hj fb hfb => ?_) s.fb
    obtain hnone | ⟨hbehind, hcol⟩ := hlower j hj
    · exact hfb.drawSprite_of_no_offer hnone
    · exact hfb.drawSprite_of_behind hbehind hcol
  exact hblock a b ha hb hcovers

/-- Settles O39: no sprite writes another line, and on the line none writes a column it offers no colour. -/
theorem spritesLeaveOtherPixels : Obligations.SpritesLeaveOtherPixels := by
  intro s line a b ha hb h
  rw [renderSprites_fb]
  by_cases hrow : b / s.params.scale = line
  · have hnone := h.resolve_left (not_not_intro hrow)
    unfold spriteFramebuffer
    split
    · rfl
    · refine forEach_pixel_unwritten (fun i hi fb => ?_) s.fb
      exact fbPixel_drawSprite_of_no_offer ha hb hrow (hnone i (by simpa [scanOrder] using hi)) fb
  · exact fbPixel_spriteFramebuffer_other s ha hb hrow

end Sys2Proof.Machine
end

section
/-! Palette and framebuffer: what FbGet returns after FbSet and FILL, the lanes of a palette byte, what the host and the
presentation agent leave unchanged, and the settled obligations of 43_palette_framebuffer.md. -/

namespace Sys2Proof.Machine

/-! ## FbGet after a write (R172, R174) -/

/-- What FbGet returns at each pair of coordinates after FbSet. -/
theorem fbGet_fbSet (p : Params) (fb : Framebuffer) (x y : Int) (c : Nat) (x' y' : Int) :
    fbGet p (fbSet p fb x y c) x' y' = if Inside p x y ∧ x' = x ∧ y' = y then some c else fbGet p fb x' y' := by
  by_cases h : Inside p x' y'
  · have ⟨hx, _, hy, _⟩ := h
    rw [fbGet_of_inside _ h, fbGet_of_inside _ h, fbPixel_fbSet, Int.toNat_of_nonneg hx, Int.toNat_of_nonneg hy,
      apply_ite some]
  · rw [fbGet_of_outside _ h, fbGet_of_outside _ h, if_neg]
    rintro ⟨hin, rfl, rfl⟩
    exact h hin

/-- What FbGet returns inside the framebuffer after FILL. -/
theorem fbGet_fill_of_inside {p : Params} (fb : Framebuffer) (px line : Int) (col : Nat) {x y : Int} (h : Inside p x y) :
    fbGet p (fill p fb px line col) x y =
      if Covers p px line x.toNat y.toNat then some col else fbGet p fb x y := by
  rw [fbGet_of_inside _ h, fbGet_of_inside _ h, fbPixel_fill p fb px line col (by omega) (by omega), apply_ite some]

/-! ## Lanes of a palette byte (R170) -/

theorem toNat_palette (cid : BitVec 2) (p : Byte) : (palette cid p).toNat = p.toNat / 2 ^ (2 * cid.toNat) % 4 := by
  rw [palette, BitVec.toNat_setWidth, BitVec.toNat_ushiftRight, Nat.shiftRight_eq_div_pow]

/-! ## What each agent leaves unchanged (R177, R210, R221, R229) -/

/-- Only TICK is the driver's. -/
theorem ne_tick_of_agentOf_ne_driver {i : Instr} (h : agentOf i ≠ .driver) (n : BitVec 16) : i ≠ .tick n := by
  rintro rfl
  exact h rfl

/-- Only FB_READ is the presentation agent's. -/
theorem eq_fbRead_of_agentOf_presentation {i : Instr} (h : agentOf i = .presentation) : ∃ x y, i = .fbRead x y := by
  cases i with
  | fbRead x y => exact ⟨x, y, rfl⟩
  | _ => cases h

/-- Only TICK answers a request list. -/
theorem exec_other_response {i : Instr} {s t : State} (hi : ∀ n, i ≠ .tick n) (h : exec i s = .next t)
    (l : List Interrupt) : t.response ≠ .requests l := by
  cases i with
  | tick n => exact absurd rfl (hi n)
  | fbRead x y => cases h; split <;> exact Response.noConfusion
  | oamWrite a v => cases h; split <;> exact Response.noConfusion
  | _ => cases h; exact Response.noConfusion

/-- Only TICK and a host write of STAT write STAT. -/
theorem exec_other_stat {i : Instr} {s t : State} (hi : ∀ n, i ≠ .tick n) (hstat : ∀ v, i ≠ .regWriteStat v)
    (h : exec i s = .next t) : t.regs.stat = s.regs.stat := by
  cases i with
  | tick n => exact absurd rfl (hi n)
  | regWriteStat v => exact absurd rfl (hstat v)
  | fbRead x y => cases h; split <;> rfl
  | oamWrite a v => cases h; split <;> rfl
  | _ => cases h; rfl

/-- FB_READ changes the response and the count of out-of-range reads, and nothing else. -/
theorem exec_fbRead_frame {x y : BitVec 14} {s t : State} (h : exec (.fbRead x y) s = .next t) :
    t = { s with response := t.response, draws := t.draws } := by
  cases h
  split <;> rfl

/-! ## Settled obligations -/

/-- Settles O24, by what FbGet returns after FbSet. -/
theorem fbSetStoresOnePixel : Obligations.FbSetStoresOnePixel := by
  refine fun p fb x y c => ⟨fun hin => ?_, fun x' y' hne => ?_, fbSet_of_outside fb c⟩
  · rw [fbGet_fbSet, if_pos ⟨hin, rfl, rfl⟩]
  · rw [fbGet_fbSet, if_neg]
    rintro ⟨-, rfl, rfl⟩
    exact hne rfl

/-- Settles O25: inside the framebuffer FILL writes the pixels its block covers, and outside it FbGet sees no pixel. -/
theorem fillSetsBlock : Obligations.FillSetsBlock := by
  refine fun p fb px line col x y => ⟨fun hin hleft hright htop hbottom => ?_, fun hout => ?_⟩
  · rw [fbGet_fill_of_inside fb px line col hin, if_pos (by constructor <;> constructor <;> omega)]
  · by_cases hin : Inside p x y
    · rw [fbGet_fill_of_inside fb px line col hin, if_neg]
      rintro ⟨⟨hleft, hright⟩, htop, hbottom⟩
      exact hout (by omega)
    · rw [fbGet_of_outside _ hin, fbGet_of_outside _ hin]

/-- Settles O26: the shift drops the lanes below `cid` and the truncation those above it. -/
theorem paletteLane : Obligations.PaletteLane :=
  ⟨toNat_palette, by decide, rfl, rfl, fun _ => ⟨rfl, rfl, rfl, rfl⟩⟩

/-- Settles O57: a transaction of the host or the presentation agent is no TICK, and the presentation agent's is FB_READ. -/
theorem agentsKeepToTheirState : Obligations.AgentsKeepToTheirState := by
  refine ⟨fun i s t hagent h => ?_, fun i s t hagent h => ?_, fun i s t hagent h hstat hly => ?_⟩
  · have hi := ne_tick_of_agentOf_ne_driver hagent
    obtain ⟨hmode, hacc, hfb, hrequests, hcode⟩ := exec_other_frame hi h
    exact ⟨hmode, hacc, hfb, hrequests, exec_params h, hcode, exec_other_response hi h⟩
  · obtain ⟨x, y, rfl⟩ := eq_fbRead_of_agentOf_presentation hagent
    exact exec_fbRead_frame h
  · have hi := ne_tick_of_agentOf_ne_driver (i := i) (by simp [hagent])
    exact ⟨exec_other_stat hi hstat h, exec_other_ly hi hly h⟩

end Sys2Proof.Machine
end

section
/-! Interface transactions: what each register write, register read, memory write and framebuffer read answers, and the
settled obligations of 44_interface_ops.md. -/

namespace Sys2Proof.Machine

/-! ## Registers (R185 to R206) -/

/-- The byte that a host write of `v` leaves in a register: `v` itself but for STAT (R186) and LY (R187). -/
def hostByte (s : State) (v : Byte) : Reg → Byte
  | .stat => hostStat s.regs.stat v
  | .ly => hostLy s.params.lyWritePolicy s.regs.ly v
  | _ => v

theorem exec_regWriteInstr (s : State) (v : Byte) (r : Reg) :
    exec (regWriteInstr v r) s = .next (plainWrite s r (hostByte s v r)) := by
  cases r <;> rfl

theorem exec_regReadInstr (s : State) (r : Reg) : exec (regReadInstr r) s = .next (plainRead s r) := by
  cases r <;> rfl

theorem exec_regWriteLy (s : State) (v : Byte) :
    exec (.regWriteLy v) s = .next (plainWrite s .ly (hostLy s.params.lyWritePolicy s.regs.ly v)) :=
  exec_regWriteInstr s v .ly

/-! ## Memories (R207, R208) -/

theorem Memory.read_write_same {m : Memory} (hm : m.wf = true) (a : Nat) (v : Byte) : (m.write a v).read a = v := by
  rw [Memory.read_write hm, if_pos rfl]

theorem Memory.read_write_other {m : Memory} (hm : m.wf = true) {a x : Nat} (v : Byte) (h : x ≠ a) :
    (m.write a v).read x = m.read x := by
  rw [Memory.read_write hm, if_neg h]

theorem exec_vramWrite (s : State) (a : BitVec 13) (v : Byte) :
    exec (.vramWrite a v) s = .next { s with vram := s.vram.write (vramAddress a) v, response := .nothing } := rfl

theorem exec_oamWrite_of_le (s : State) {a : Byte} (v : Byte) (h : a.toNat ≤ 159) :
    exec (.oamWrite a v) s = .next { s with oam := s.oam.write (oamAddress a) v, response := .nothing } :=
  congrArg Host.Outcome.next (if_pos h)

/-- An offset past the last OAM byte is refused (R90, log entry 18). -/
theorem exec_oamWrite_of_ge (s : State) {a : Byte} (v : Byte) (h : 160 ≤ a.toNat) :
    exec (.oamWrite a v) s = .next s.refuseWord :=
  congrArg Host.Outcome.next (if_neg (Nat.not_le_of_lt h))

/-! ## Framebuffer read (R209) -/

theorem exec_fbRead_of_inside {s : State} {x y : BitVec 14} (h : Inside s.params x.toNat y.toNat) :
    exec (.fbRead x y) s = .next { s with response := .colour (fbPixel s.params s.fb x.toNat y.toNat) } := by
  have hget : fbGet s.params s.fb (pixelCoord x) (pixelCoord y) = some (fbPixel s.params s.fb x.toNat y.toNat) :=
    fbGet_of_inside s.fb h
  simp only [exec, execFbRead, hget, State.respond]

/-- Outside the framebuffer the response is the next draw (R173, log entry 8). -/
theorem exec_fbRead_of_outside {s : State} {x y : BitVec 14} (h : ¬ Inside s.params x.toNat y.toNat) :
    exec (.fbRead x y) s =
      .next { s with response := .colour (Config.fbOutOfRange s.draws), draws := s.draws + 1 } := by
  have hget : fbGet s.params s.fb (pixelCoord x) (pixelCoord y) = none := fbGet_of_outside s.fb h
  simp only [exec, execFbRead, hget]

/-! ## Settled obligations -/

/-- Settles O21: VRAM_WRITE writes one byte of a canonical memory. -/
theorem vramWriteStoresByte : Obligations.VramWriteStoresByte := fun s a v hwf =>
  ⟨_, exec_vramWrite s a v, rfl, Memory.read_write_same hwf _ v, rfl, fun _ hx => Memory.read_write_other hwf v hx,
    Memory.write_wf hwf _ v⟩

/-- Settles O22: OAM_WRITE writes one byte of a canonical memory, or is refused. -/
theorem oamWriteStoresByte : Obligations.OamWriteStoresByte := by
  refine ⟨fun s a v ha hwf => ?_, fun s a v ha => exec_oamWrite_of_ge s v ha⟩
  exact ⟨_, exec_oamWrite_of_le s v ha, rfl, Memory.read_write_same hwf _ v, rfl,
    fun _ hx => Memory.read_write_other hwf v hx, Memory.write_wf hwf _ v⟩

/-- Settles O15: the byte a host write leaves in each of the nine registers is the byte written. -/
theorem plainRegisterWrites : Obligations.PlainRegisterWrites := fun s v =>
  have hwrite := exec_regWriteInstr s v
  ⟨hwrite .lcdc, hwrite .lyc, hwrite .scx, hwrite .scy, hwrite .wx, hwrite .wy, hwrite .bgp, hwrite .obp0, hwrite .obp1⟩

/-- Settles O16: the byte stored is `hostStat`. -/
theorem hostStatWrite : Obligations.HostStatWrite := fun s v =>
  ⟨hostStat s.regs.stat v, exec_regWriteInstr s v .stat, statMode_hostStat _ v, fun _ hb => bit_hostStat _ v hb⟩

/-- Settles O17: under IGNORE the byte stored in LY is LY's own. -/
theorem hostLyWrite : Obligations.HostLyWrite := by
  refine fun s v => ⟨fun hstore => ?_, fun hreset => ?_, fun hignore => ?_⟩
  · rw [exec_regWriteLy, hstore]
    rfl
  · rw [exec_regWriteLy, hreset]
    rfl
  · rw [exec_regWriteLy, hignore]
    rfl

/-- Settles O18: every register is read alike. -/
theorem registerReads : Obligations.RegisterReads := fun s =>
  have hread := exec_regReadInstr s
  ⟨hread .lcdc, hread .stat, hread .ly, hread .lyc, hread .scx, hread .scy, hread .wx, hread .wy, hread .bgp, hread .obp0,
    hread .obp1⟩

/-- Settles O23: the value outside the framebuffer is the next draw. -/
theorem fbReadResponds : Obligations.FbReadResponds := fun _ _ _ =>
  ⟨exec_fbRead_of_inside, fun hout => ⟨_, exec_fbRead_of_outside hout⟩⟩

end Sys2Proof.Machine
end

section
/-! Exceptions: a step with no word waiting, and the settled obligation of 60_exceptions.md. -/

namespace Sys2Proof.Machine

/-- With no word waiting a step changes nothing (log entry 2). -/
theorem step_of_input_nil {s : State} (hinput : s.input = []) : step s = .next s := by
  simp only [step, hinput]

/-! ## Settled obligation -/

/-- Settles O10: the three things a step can find are no word, a word that decodes, whose transaction answers a next state,
and a reserved word, which it refuses. -/
theorem everyStepCompletes : Obligations.EveryStepCompletes := by
  intro s
  cases hinput : s.input with
  | nil => exact ⟨s, step_of_input_nil hinput⟩
  | cons w rest =>
    cases hdecode : decode w with
    | ok i =>
      rw [stepRunsDecodedTransaction s w rest i hinput hdecode]
      exact exec_next i { s with input := rest }
    | error r =>
      have hreserved : ReservedEncoding w := decode_eq_error_iff.1 ⟨r, hdecode⟩
      exact ⟨_, step_of_reserved hinput hreserved⟩

end Sys2Proof.Machine
end

section
/-! Reset and hazards: what a register read answers after a host write of the register, the creation state at reset, and
the settled obligations of 70_reset_and_hazards.md. -/

namespace Sys2Proof.Machine

/-! ## A read after a write (R244) -/

/-- The written byte is stored unchanged but in STAT, and in LY under the policies other than STORE. -/
theorem hostByte_eq_written {s : State} {r : Reg} (v : Byte) (hstat : r ≠ .stat)
    (hly : r = .ly → s.params.lyWritePolicy = .store) : hostByte s v r = v := by
  cases r with
  | stat => exact absurd rfl hstat
  | ly => rw [hostByte, hly rfl, hostLy]
  | _ => rfl

/-- A read of the register just written answers the byte that the write left in it. -/
theorem exec_read_after_write {s t : State} {r : Reg} {v : Byte} (h : exec (regWriteInstr v r) s = .next t) :
    exec (regReadInstr r) t = .next (t.respond (.byte (hostByte s v r))) := by
  rw [exec_regWriteInstr] at h
  obtain rfl := Host.Outcome.next.inj h
  have hreg : (plainWrite s r (hostByte s v r)).reg r = hostByte s v r := Regs.get_set_same s.regs r _
  rw [exec_regReadInstr, plainRead, hreg]

/-! ## Creation (R40, R243) -/

/-- The reset state is a creation state: its parameters are in range, and it inherits the storage of `Inv`. -/
theorem created_reset : Created State.reset where
  params_wf := by decide
  mode_created := ⟨rfl, rfl⟩
  line_visible := by decide
  storage := resetMeetsInvariant.storage
  no_requests := rfl
  no_refusal := rfl

/-- In a creation state `StatAgrees` puts the code of the mode, OAMScan's, in STAT[1:0]. -/
theorem Created.statMode_eq {s : State} (hs : Created s) (hstat : StatAgrees s) : statMode s.regs.stat = modeCode s.mode := by
  obtain ⟨hmode, -⟩ := hs.mode_created
  obtain ⟨hcode, -⟩ := hstat
  rw [hmode, hcode]
  rfl

/-! ## Settled obligations -/

/-- Settles O19: the read answers the byte the write stored, which is `hostStat` for STAT. -/
theorem readAfterWrite : Obligations.ReadAfterWrite := by
  intro s t r v h
  have hread := exec_read_after_write h
  refine ⟨fun hstat hly => ?_, ?_⟩
  · rwa [hostByte_eq_written v hstat hly] at hread
  · rintro rfl
    exact ⟨hostStat s.regs.stat v, hread, statMode_hostStat _ v, fun _ hb => bit_hostStat _ v hb⟩

/-- Settles O14: the agreement before the first TICK is the first case of R30. -/
theorem launchPremises : Obligations.LaunchPremises :=
  ⟨⟨created_reset, created_reset.mode_created, rfl, created_reset.no_refusal⟩,
    fun _ hs hstat => ⟨hs.statMode_eq hstat, .inl (hs.statMode_eq hstat)⟩⟩

end Sys2Proof.Machine
end
